-- ==== Sys2Proof/Word.lean ====
section
/-! DEFINITION. The byte, the 32-bit command field and the symbol (R9, R24, R57, R90). -/

namespace Sys2Proof

/-- R9, R57: every frame field is one byte; bit 7 is its most significant bit. -/
abbrev Byte := BitVec 8

/-- R90: a u32 or s32 field of a command word. -/
abbrev Word32 := BitVec 32

/-- R24: a symbol is "an opaque name compared only for equality". A lamp name in a command word is a byte sequence
that "spells" a symbol (R90, R92), so a symbol is its spelling. DESIGN CHOICE, log 13. -/
abbrev Symbol := List Byte

/-- The symbol a piece of ASCII text spells. -/
def sym (s : String) : Symbol := s.toList.map fun c => BitVec.ofNat 8 c.toNat

end Sys2Proof
end

