-- ==== Sys2Proof/Syntax.lean ====
section
/-! DEFINITION. The syntax: one constructor per row of spec/opcode_table.json. -/

namespace Sys2Proof

/-- R90, code 0x07: the lamp operand, by numeric id (sel 0x00) or by name (sel 0x01). -/
inductive Lamp where
  | byId (id : Byte)
  | byName (name : Symbol)
deriving DecidableEq, Repr, Inhabited

/-- The instructions. The first eleven are the decode classes of R94 with the operands their rules name; the others are
the commands of R89 with the argument fields of R90. -/
inductive Instr where
  /-- DEC_ENTER_SBEP, R112. -/
  | decEnterSbep (p1 p2 : Byte)
  /-- DEC_BUTTON, R113. -/
  | decButton (p1 p2 : Byte)
  /-- DEC_KNOB, R114. -/
  | decKnob (p1 p2 : Byte)
  /-- DEC_BACKLIGHT, R115. -/
  | decBacklight (p1 p2 : Byte)
  /-- DEC_AUDIO_MUTE, R116. -/
  | decAudioMute (p1 p2 : Byte)
  /-- DEC_CHAN_SELECT, R117. -/
  | decChanSelect (p1 p2 : Byte)
  /-- DEC_CHAN_ACK, R118. -/
  | decChanAck (p1 p2 : Byte)
  /-- DEC_OUTER_OTHER, R119: each field Present or Absent. -/
  | decOuterOther (a p1 p2 f : Option Byte)
  /-- DEC_SB_TEXT, R142: the sub-device code and the payload. -/
  | decSbText (sa : Byte) (payload : List Byte)
  /-- DEC_SB_ICON, R143: the icon code and the state code. -/
  | decSbIcon (sa op : Byte)
  /-- DEC_SB_OTHER, R144: the whole window. -/
  | decSbOther (w : List Byte)
  /-- ENTER_SCAN, R174. -/
  | enterScan
  /-- RESET, R175. -/
  | reset
  /-- ENTER_SUB, R176. -/
  | enterSub (module : Byte)
  /-- SET_CHANNEL, R177: `ch` is the s32 field. -/
  | setChannel (ch : Word32)
  /-- SEND_BUTTON, R178. -/
  | sendButton (code val : Byte)
  /-- DISPLAY_TEXT, R179. -/
  | displayText (offset : Byte) (text : List Byte)
  /-- LAMP_CONTROL, R180. -/
  | lampControl (lamp : Lamp) (function : Byte)
  /-- ILLUM_LEVEL, R181. -/
  | illumLevel (id level : Byte)
  /-- GENERIC_EVENT, R182. -/
  | genericEvent (id : Byte) (value : Word32)
  /-- AUDIO_ENABLE, R183. -/
  | audioEnable (flag : Byte)
  /-- SET_RX_FREQ, R185. -/
  | setRxFreq (hz : Word32)
  /-- SET_TX_FREQ, R186. -/
  | setTxFreq (hz : Word32)
  /-- READ_EEPROM, R210. -/
  | readEeprom (module : Byte) (start endAddr : Word32) (progress : Byte)
  /-- ILLEGAL, R91 and R172: the whole illegal command word. -/
  | illegal (word : List Byte)
deriving DecidableEq, Repr, Inhabited

/-- R76, R240: where the bytes of an instruction arrive. `outer` is a window decoded in mode Idle, `sbep` a window
decoded in mode SbepPending, `command` a command word. -/
inductive Port where
  | outer
  | sbep
  | command
deriving DecidableEq, Repr, Inhabited

/-- The port an instruction's bytes arrive on. -/
def Instr.port : Instr → Port
  | .decEnterSbep _ _ => .outer
  | .decButton _ _ => .outer
  | .decKnob _ _ => .outer
  | .decBacklight _ _ => .outer
  | .decAudioMute _ _ => .outer
  | .decChanSelect _ _ => .outer
  | .decChanAck _ _ => .outer
  | .decOuterOther _ _ _ _ => .outer
  | .decSbText _ _ => .sbep
  | .decSbIcon _ _ => .sbep
  | .decSbOther _ => .sbep
  | .enterScan => .command
  | .reset => .command
  | .enterSub _ => .command
  | .setChannel _ => .command
  | .sendButton _ _ => .command
  | .displayText _ _ => .command
  | .lampControl _ _ => .command
  | .illumLevel _ _ => .command
  | .genericEvent _ _ => .command
  | .audioEnable _ => .command
  | .setRxFreq _ => .command
  | .setTxFreq _ => .command
  | .readEeprom _ _ _ _ => .command
  | .illegal _ => .command

end Sys2Proof
end

