-- ==== Sys2Proof/Config.lean ====
section
/-! DEFINITION. What an implementation fixes (the configuration ROM, the parameters of R8, the fixed constants of R6), the
register types, and the free values: opaque constants that no proof can evaluate. -/

namespace Sys2Proof

/-- R25: the two kinds of button-table entry. -/
inductive ButtonKind where
  | button
  | knob
deriving DecidableEq, Repr, Inhabited

/-- R25. -/
structure ButtonEntry where
  name : Symbol
  kind : ButtonKind
  volume : Bool
deriving DecidableEq, Repr, Inhabited

/-- R27: what a display sub-device is routed to. -/
inductive Role where
  | zone
  | channel
  | softkeys
  | other
deriving DecidableEq, Repr, Inhabited

/-- R27. -/
structure SubdevEntry where
  name : Symbol
  role : Role
deriving DecidableEq, Repr, Inhabited

/-- R30: the four fields of an outgoing outer frame. -/
structure Template where
  address : Byte
  param1 : Byte
  param2 : Byte
  function : Byte
deriving DecidableEq, Repr, Inhabited

/-- R24: the configuration ROM. Each table is a partial map, written as a list of (key, value) pairs of which the first
with a given key counts (log 12). -/
structure Rom where
  variant : Symbol
  fpAddr : Byte
  radioAddr : Byte
  fnButton : Byte
  fnBacklight : Byte
  fnAudioMute : Byte
  fnChanSelect : Byte
  fnChanAck : Byte
  sbTextAddr : Byte
  sbIconAddr : Byte
  buttonTable : List (Byte × ButtonEntry)
  iconTable : List (Byte × Symbol)
  subdevTable : List (Byte × SubdevEntry)
  moduleTable : List (Symbol × Byte)
  lampTable : List (Symbol × Byte)
  tScan : Template
  tReset : Template
  tChanSelect : Template
  tChanAck : Template
  tIllum : Template
  tGeneric : Template
  tAudio : Template
  tRxFreq : Template
  tTxFreq : Template
  tModsel : Template
  textModule : Byte
  textOpcode : Byte
  lampModule : Byte
  lampOpcode : Byte
  eeModule : Byte
  eeReadOpcode : Byte
  eeReplyOpcode : Byte
  settleDelay : Nat
deriving DecidableEq, Repr, Inhabited

/-- R8, D9: where the SBEP payload's end counts from. -/
inductive PayloadEnd where
  | relative
  | absolute
deriving DecidableEq, Repr, Inhabited

/-- R8: the behavioural parameters. `lampOverrides` is `lamp_payload` as plain data: the pairs `(id, function)` at which
it differs from the default of D21, with the three bytes it gives there (log 7). -/
structure Params where
  payloadEnd : PayloadEnd
  offsetPrefix : Bool
  lampOverrides : List ((Byte × Byte) × (Byte × Byte × Byte))
deriving DecidableEq, Repr, Inhabited

/-- R8: "Every rule and vector in this spec assumes the defaults unless it says otherwise." -/
def Params.defaults : Params := { payloadEnd := .relative, offsetPrefix := false, lampOverrides := [] }

/-- R31: the protocol-mode register. -/
inductive Mode where
  | idle
  | sbepPending
deriving DecidableEq, Repr, Inhabited

/-- R23: the operational state. -/
inductive OpState where
  | unconstructed
  | operational
  | configFault
deriving DecidableEq, Repr, Inhabited

/-- R21: the sequencer step register. `step cmd k` is the spec's `Step(cmd, k)`, the command held with its arguments. -/
inductive Seq where
  | ready
  | step (cmd : Instr) (k : Nat)
deriving DecidableEq, Repr, Inhabited

/-- R32: the bulk-read registers. `endAddr` is the spec's `end`. -/
structure BulkRegs where
  cur : Nat
  endAddr : Nat
  modsel : Byte
  acc : List Byte
  progress : Bool
deriving DecidableEq, Repr, Inhabited

namespace Config

/-- R6. -/
def broadcastAddr : Byte := 0x00

/-- R6. -/
def enterSbepFn : Byte := 0x06

/-- R6: the payload of an SBEP frame starts at this offset. -/
def sbepHdrLen : Nat := 5

/-- R6. -/
def lenAdjust : Nat := 2

/-- R6. -/
def textMax : Nat := 14

/-- R6. -/
def chLimit : Int := 255

/-- R6. -/
def freqStepHz : Nat := 6250

/-- R6. -/
def freqBase : Int := 60000

/-- R6. -/
def chunk : Nat := 64

/-- R32, R52, R210: one past the last EEPROM address. -/
def eeLimit : Nat := 0x1000000

/-- R32, I14: what the bulk-read registers hold once they are unspecified. A FREE VALUE: nothing constrains it. Log 9.
-/
opaque freeBulk : Nat → BulkRegs

/-- R291: what `mode` holds after a failed construction. A FREE VALUE. Log 10. -/
opaque freeMode : Nat → Mode

/-- R291: what `seq` holds after a failed construction. A FREE VALUE. Log 10. -/
opaque freeSeq : Nat → Seq

end Config

end Sys2Proof
end

