-- ==== Sys2Proof/Machine/TestConfig.lean ====
section
/-! DEFINITION. TC, the synthetic configuration ROM of spec/95_test_vectors.md section 1. Its values are the spec's own and
are not hardware codes. State.reset holds it (DESIGN CHOICE, log 6). -/

namespace Sys2Proof.Machine

/-- TC's variant identifier. -/
def tcVariant : Symbol := sym "TC-HEAD"

/-- `95_test_vectors.md` section 1. -/
def tc : Rom :=
  { variant := tcVariant
    fpAddr := 0xA1
    radioAddr := 0xA2
    fnButton := 0xB1
    fnBacklight := 0xB2
    fnAudioMute := 0xB3
    fnChanSelect := 0xB4
    fnChanAck := 0xB5
    sbTextAddr := 0xC1
    sbIconAddr := 0xC2
    buttonTable :=
      [(0x10, ⟨sym "PTT", .button, false⟩), (0x20, ⟨sym "VOL", .knob, true⟩), (0x21, ⟨sym "DIAL", .knob, false⟩)]
    iconTable := [(0x01, sym "SCAN"), (0x02, sym "MON")]
    subdevTable :=
      [(0x00, ⟨sym "ZONE", .zone⟩), (0x01, ⟨sym "CHAN", .channel⟩), (0x02, ⟨sym "SOFTKEYS", .softkeys⟩),
       (0x03, ⟨sym "AUX", .other⟩)]
    moduleTable := [(sym "RADIO", 0xD1), (sym "DISPLAY", 0xD2)]
    lampTable := [(sym "RED", 0x01), (sym "GREEN", 0x02)]
    tScan := ⟨0xA2, 0x00, 0x00, 0xE1⟩
    tReset := ⟨0x00, 0x00, 0x00, 0xE0⟩
    tChanSelect := ⟨0xA2, 0x00, 0x00, 0xB4⟩
    tChanAck := ⟨0xA2, 0x00, 0x00, 0xB5⟩
    tIllum := ⟨0xA1, 0x00, 0x00, 0xE2⟩
    tGeneric := ⟨0xA1, 0x00, 0x00, 0xE3⟩
    tAudio := ⟨0xA2, 0x00, 0x00, 0xB3⟩
    tRxFreq := ⟨0xA2, 0x00, 0x00, 0xE4⟩
    tTxFreq := ⟨0xA2, 0x00, 0x00, 0xE5⟩
    tModsel := ⟨0x00, 0x00, 0x00, 0xE6⟩
    textModule := 0xD2
    textOpcode := 0xF1
    lampModule := 0xD2
    lampOpcode := 0xF2
    eeModule := 0xD1
    eeReadOpcode := 0xF3
    eeReplyOpcode := 0xF4
    settleDelay := 1 }

end Sys2Proof.Machine
end

