-- ==== Sys2Proof/WellFormed.lean ====
section
/-! DEFINITION. Which instruction terms some window or command word decodes to, written from the maps of R94 and the layouts
of R90 and R91, independently of the decoder. The decode rows depend on the ROM and on R8's payload end. -/

namespace Sys2Proof

/-- R94: the `(address, function)` pairs of the outer decode map, in the order they are tested. Row 1 is both BUTTON and
KNOB. -/
def Rom.outerRows (rom : Rom) : List (Byte × Byte) :=
  [(Config.broadcastAddr, Config.enterSbepFn), (rom.fpAddr, rom.fnButton), (rom.fpAddr, rom.fnBacklight),
   (rom.radioAddr, rom.fnAudioMute), (rom.radioAddr, rom.fnChanSelect), (rom.radioAddr, rom.fnChanAck)]

/-- R94, D5: no earlier row of the outer decode map has row `n`'s pair, so row `n` can be selected. -/
def Rom.rowReachable (rom : Rom) (n : Nat) : Bool :=
  match rom.outerRows[n]? with
  | some pair => decide (pair ∉ rom.outerRows.take n)
  | none => false

/-- R25, R111: BUTTON_TABLE has an entry of kind Knob for this code. -/
def Rom.isKnobCode (rom : Rom) (code : Byte) : Bool :=
  match rom.buttonTable.lookup code with
  | some e => decide (e.kind = .knob)
  | none => false

/-- R74, R75: the longest payload a one-byte header length can announce. -/
def Params.maxPayload (ps : Params) : Nat :=
  match ps.payloadEnd with
  | .relative => 253
  | .absolute => 248

/-- R90: the total length of the layout that a command word's leading bytes select. -/
def wordLength (w : List Byte) : Option Nat :=
  match w with
  | [] => none
  | c :: _ =>
    match c.toNat with
    | 0x01 => some 1
    | 0x02 => some 1
    | 0x03 => some 2
    | 0x04 => some 5
    | 0x05 => some 3
    | 0x06 => w[2]?.map fun n => 3 + n.toNat
    | 0x07 =>
      match w[1]? with
      | some sel =>
        if sel = 0x00 then some 4 else if sel = 0x01 then w[2]?.map fun n => 4 + n.toNat else none
      | none => none
    | 0x08 => some 3
    | 0x09 => some 6
    | 0x0A => some 2
    | 0x0B => some 5
    | 0x0C => some 5
    | 0x0D => some 11
    | _ => none

/-- R90: a text byte of DISPLAY_TEXT, 0x00 to 0x7F. -/
def isAscii (b : Byte) : Bool := decide (b.toNat ≤ 0x7F)

/-- R91: the word matches a layout of R90. -/
def legalWord (w : List Byte) : Bool :=
  decide (wordLength w = some w.length) && (decide (w.head? ≠ some 0x06) || (w.drop 3).all isAscii)

/-- The instruction is what some window (under this ROM and these parameters) or some command word decodes to. -/
def Instr.wf (rom : Rom) (ps : Params) : Instr → Bool
  | .decEnterSbep _ _ => true
  | .decButton p1 _ => rom.rowReachable 1 && !rom.isKnobCode p1
  | .decKnob p1 _ => rom.rowReachable 1 && rom.isKnobCode p1
  | .decBacklight _ _ => rom.rowReachable 2
  | .decAudioMute _ _ => rom.rowReachable 3
  | .decChanSelect _ _ => rom.rowReachable 4
  | .decChanAck _ _ => rom.rowReachable 5
  | .decOuterOther a p1 p2 f =>
    (a.isSome || p1.isNone) && (p1.isSome || p2.isNone) && (p2.isSome || f.isNone) &&
      (match a, f with
       | some a, some f => decide ((a, f) ∉ rom.outerRows)
       | _, _ => true)
  | .decSbText _ payload => decide (payload.length ≤ ps.maxPayload)
  | .decSbIcon _ _ => decide (rom.sbIconAddr ≠ rom.sbTextAddr)
  | .decSbOther w =>
    !(decide (w.head? = some rom.sbTextAddr) && decide (2 ≤ w.length)) &&
      !(decide (w.head? = some rom.sbIconAddr) && decide (5 ≤ w.length))
  | .enterScan => true
  | .reset => true
  | .enterSub _ => true
  | .setChannel _ => true
  | .sendButton _ _ => true
  | .displayText _ text => decide (text.length ≤ 255) && text.all isAscii
  | .lampControl (.byId _) _ => true
  | .lampControl (.byName name) _ => decide (name.length ≤ 255)
  | .illumLevel _ _ => true
  | .genericEvent _ _ => true
  | .audioEnable _ => true
  | .setRxFreq _ => true
  | .setTxFreq _ => true
  | .readEeprom _ _ _ _ => true
  | .illegal w => !legalWord w

end Sys2Proof
end

