-- ==== Sys2Proof/Decode.lean ====
section
/-! DEFINITION. Decoding windows and command words, total on any bytes, and after it the encoder: the bytes of a
well-formed instruction. -/

namespace Sys2Proof

/-! ### Fields -/

/-- R9: `opt(w, i)`, Present or Absent. -/
def opt (w : List Byte) (i : Nat) : Option Byte := w[i]?

/-- R9: the clipped slice `w[a:b]`. -/
def slice (w : List Byte) (a b : Nat) : List Byte := (w.take b).drop a

/-- R89: a 4-byte big-endian field. -/
def be32 (b3 b2 b1 b0 : Byte) : Word32 := b3 ++ b2 ++ b1 ++ b0

/-- R89: the 4 big-endian bytes of a field. -/
def bytes32 (v : Word32) : List Byte :=
  [v.extractLsb' 24 8, v.extractLsb' 16 8, v.extractLsb' 8 8, v.extractLsb' 0 8]

/-- R74: the body length of a header length byte, in mathematical integers. A negative difference falls back to the
unmodified length. -/
def bodyLen (L : Byte) : Nat :=
  let t : Int := (L.toNat : Int) - Config.lenAdjust
  if t < 0 then L.toNat else t.toNat

/-- R74, D10: an absent length byte gives body length 0. -/
def bodyLenOpt : Option Byte → Nat
  | some L => bodyLen L
  | none => 0

/-- R75: where the payload ends in the window. -/
def payloadStop (ps : Params) (n : Nat) : Nat :=
  match ps.payloadEnd with
  | .relative => Config.sbepHdrLen + n
  | .absolute => n

/-- R75: the payload of an SBEP window. -/
def payload (ps : Params) (w : List Byte) : List Byte :=
  slice w Config.sbepHdrLen (payloadStop ps (bodyLenOpt (opt w 2)))

/-! ### Windows -/

/-- R111: the class of an outer frame whose first four bytes are present; the rows in their order. -/
def selectOuter (rom : Rom) (a p1 p2 f : Byte) : Instr :=
  if a = Config.broadcastAddr ∧ f = Config.enterSbepFn then .decEnterSbep p1 p2
  else if a = rom.fpAddr ∧ f = rom.fnButton then
    match rom.buttonTable.lookup p1 with
    | some e => if e.kind = .knob then .decKnob p1 p2 else .decButton p1 p2
    | none => .decButton p1 p2
  else if a = rom.fpAddr ∧ f = rom.fnBacklight then .decBacklight p1 p2
  else if a = rom.radioAddr ∧ f = rom.fnAudioMute then .decAudioMute p1 p2
  else if a = rom.radioAddr ∧ f = rom.fnChanSelect then .decChanSelect p1 p2
  else if a = rom.radioAddr ∧ f = rom.fnChanAck then .decChanAck p1 p2
  else .decOuterOther (some a) (some p1) (some p2) (some f)

/-- R71, R111: an outer window. Every row needs the function byte, byte 3, so a window in which it is absent falls to
OUTER_OTHER (R119, R120). Byte 4 and later bytes are not read. -/
def decodeOuter (rom : Rom) (w : List Byte) : Instr :=
  match opt w 0, opt w 1, opt w 2, opt w 3 with
  | some a, some p1, some p2, some f => selectOuter rom a p1 p2 f
  | a, p1, p2, f => .decOuterOther a p1 p2 f

/-- R141: an SBEP window; the rows in their order, with their presence conditions. -/
def decodeSbep (rom : Rom) (ps : Params) (w : List Byte) : Instr :=
  match opt w 1 with
  | none => .decSbOther w
  | some sa =>
    if opt w 0 = some rom.sbTextAddr then .decSbText sa (payload ps w)
    else if opt w 0 = some rom.sbIconAddr then
      match opt w 4 with
      | some op => .decSbIcon sa op
      | none => .decSbOther w
    else .decSbOther w

/-! ### Command words -/

/-- R90, code 0x07: the bytes after the command code. -/
def decodeLamp (w : List Byte) (sel : Byte) (args : List Byte) : Instr :=
  if sel = 0x00 then
    match args with
    | [id, fn] => .lampControl (.byId id) fn
    | _ => .illegal w
  else if sel = 0x01 then
    match args with
    | [] => .illegal w
    | n :: rest =>
      if rest.length = n.toNat + 1 then .lampControl (.byName (rest.take n.toNat)) (rest.getLastD 0x00)
      else .illegal w
  else .illegal w

/-- R90, code 0x06: the offset, the count and the text bytes. -/
def decodeText (w : List Byte) (offset n : Byte) (text : List Byte) : Instr :=
  if text.length = n.toNat ∧ text.all isAscii = true then .displayText offset text else .illegal w

/-- R89 to R91: the layouts, by command code. -/
def decodeArgs (w : List Byte) (code : Nat) (args : List Byte) : Instr :=
  match code with
  | 0x01 => match args with | [] => .enterScan | _ => .illegal w
  | 0x02 => match args with | [] => .reset | _ => .illegal w
  | 0x03 => match args with | [m] => .enterSub m | _ => .illegal w
  | 0x04 => match args with | [b3, b2, b1, b0] => .setChannel (be32 b3 b2 b1 b0) | _ => .illegal w
  | 0x05 => match args with | [code, val] => .sendButton code val | _ => .illegal w
  | 0x06 => match args with | offset :: n :: text => decodeText w offset n text | _ => .illegal w
  | 0x07 => match args with | sel :: rest => decodeLamp w sel rest | _ => .illegal w
  | 0x08 => match args with | [id, level] => .illumLevel id level | _ => .illegal w
  | 0x09 => match args with | [id, b3, b2, b1, b0] => .genericEvent id (be32 b3 b2 b1 b0) | _ => .illegal w
  | 0x0A => match args with | [flag] => .audioEnable flag | _ => .illegal w
  | 0x0B => match args with | [b3, b2, b1, b0] => .setRxFreq (be32 b3 b2 b1 b0) | _ => .illegal w
  | 0x0C => match args with | [b3, b2, b1, b0] => .setTxFreq (be32 b3 b2 b1 b0) | _ => .illegal w
  | 0x0D =>
    match args with
    | [m, s3, s2, s1, s0, e3, e2, e1, e0, progress] =>
      .readEeprom m (be32 s3 s2 s1 s0) (be32 e3 e2 e1 e0) progress
    | _ => .illegal w
  | _ => .illegal w

/-- R172: the command parse. A word that R91 calls illegal is the instruction ILLEGAL. -/
def decodeCommand (w : List Byte) : Instr :=
  match w with
  | [] => .illegal []
  | c :: args => decodeArgs w c.toNat args

/-! ### Both maps -/

/-- R76: the mode decides a window's format. -/
def Mode.port : Mode → Port
  | .idle => .outer
  | .sbepPending => .sbep

/-- Decoding, by the port the bytes arrive on. -/
def decode (rom : Rom) (ps : Params) (port : Port) (w : List Byte) : Instr :=
  match port with
  | .outer => decodeOuter rom w
  | .sbep => decodeSbep rom ps w
  | .command => decodeCommand w

/-! ### The encoder -/

/-- R70: a 5-byte outer frame. The reserved byte is written 0x00 (log 23). -/
def outerFrame (a p1 p2 f : Byte) : List Byte := [a, p1, p2, f, 0x00]

/-- R70, R71: the window of four optional fields: the bytes before the first absent one, and a reserved byte 0x00 when
none is absent. -/
def optionalFrame (a p1 p2 f : Option Byte) : List Byte :=
  match a, p1, p2, f with
  | none, _, _, _ => []
  | some a, none, _, _ => [a]
  | some a, some p1, none, _ => [a, p1]
  | some a, some p1, some p2, none => [a, p1, p2]
  | some a, some p1, some p2, some f => outerFrame a p1 p2 f

/-- R74, R75: a header length byte that announces a payload of `n` bytes. -/
def headerLength (ps : Params) (n : Nat) : Byte :=
  match ps.payloadEnd with
  | .relative => BitVec.ofNat 8 (n + Config.lenAdjust)
  | .absolute => BitVec.ofNat 8 (n + Config.sbepHdrLen + Config.lenAdjust)

/-- The bytes of a well-formed instruction: a window of its class (reserved, pad and unread bytes 0x00, log 23), or its
command word by R89 and R90. -/
def encode (rom : Rom) (ps : Params) : Instr → List Byte
  | .decEnterSbep p1 p2 => outerFrame Config.broadcastAddr p1 p2 Config.enterSbepFn
  | .decButton p1 p2 => outerFrame rom.fpAddr p1 p2 rom.fnButton
  | .decKnob p1 p2 => outerFrame rom.fpAddr p1 p2 rom.fnButton
  | .decBacklight p1 p2 => outerFrame rom.fpAddr p1 p2 rom.fnBacklight
  | .decAudioMute p1 p2 => outerFrame rom.radioAddr p1 p2 rom.fnAudioMute
  | .decChanSelect p1 p2 => outerFrame rom.radioAddr p1 p2 rom.fnChanSelect
  | .decChanAck p1 p2 => outerFrame rom.radioAddr p1 p2 rom.fnChanAck
  | .decOuterOther a p1 p2 f => optionalFrame a p1 p2 f
  | .decSbText sa payload => [rom.sbTextAddr, sa, headerLength ps payload.length, 0x00, 0x00] ++ payload
  | .decSbIcon sa op => [rom.sbIconAddr, sa, 0x00, 0x00, op]
  | .decSbOther w => w
  | .enterScan => [0x01]
  | .reset => [0x02]
  | .enterSub m => [0x03, m]
  | .setChannel ch => [0x04] ++ bytes32 ch
  | .sendButton code val => [0x05, code, val]
  | .displayText offset text => [0x06, offset, BitVec.ofNat 8 text.length] ++ text
  | .lampControl (.byId id) fn => [0x07, 0x00, id, fn]
  | .lampControl (.byName name) fn => [0x07, 0x01, BitVec.ofNat 8 name.length] ++ name ++ [fn]
  | .illumLevel id level => [0x08, id, level]
  | .genericEvent id value => [0x09, id] ++ bytes32 value
  | .audioEnable flag => [0x0A, flag]
  | .setRxFreq hz => [0x0B] ++ bytes32 hz
  | .setTxFreq hz => [0x0C] ++ bytes32 hz
  | .readEeprom m start endAddr progress => [0x0D, m] ++ bytes32 start ++ bytes32 endAddr ++ [progress]
  | .illegal w => w

/-! ### Words numbered as the opcode table numbers them (log 18) -/

/-- The `n` bytes of `w`, most significant first: the outer word of R70 and the SBEP header word of R72. -/
def bytesBE : Nat → Nat → List Byte
  | 0, _ => []
  | n + 1, w => BitVec.ofNat 8 (w / 256 ^ n) :: bytesBE n w

/-- The `n` bytes of `w`, least significant first: a command word is a byte sequence, whose byte 0 is bits 7..0. -/
def bytesLE : Nat → Nat → List Byte
  | 0, _ => []
  | n + 1, w => BitVec.ofNat 8 w :: bytesLE n (w / 256)

/-- Zero bytes up to length `n`. -/
def padTo (n : Nat) (w : List Byte) : List Byte := w ++ List.replicate (n - w.length) 0x00

/-- A command word whose operand bytes above the given ones are 0x00: padded to the length its layout has (R90). -/
def padCommand (w : List Byte) : List Byte :=
  match w with
  | [] => []
  | _ :: _ =>
    match wordLength (padTo 3 w) with
    | some n => padTo n w
    | none => w

/-- The port of a table row: the outer rows have 32 bits, the SBEP rows 40, the command rows any other number. -/
def tablePort (nbits : Nat) : Port :=
  if nbits = 32 then .outer else if nbits = 40 then .sbep else .command

/-- The bytes of a table word, as the port receives them. -/
def tableBytes (nbits w : Nat) : List Byte :=
  match tablePort nbits with
  | .outer => bytesBE 4 w
  | .sbep => bytesBE 5 w
  | .command => padCommand (bytesLE ((nbits + 7) / 8) w)

/-- What the decoder reads from a table word, under the ROM and parameters that State.reset holds. -/
def decodeTableWord (nbits w : Nat) : Option Instr :=
  some (decode Machine.tc Params.defaults (tablePort nbits) (tableBytes nbits w))

end Sys2Proof
end

