-- ==== Sys2Proof/Machine/State.lean ====
section
/-! DEFINITION. The state as plain data, what the ports carry, the reasons a step can stop, and the state after reset. -/

namespace Sys2Proof.Machine

/-- R80: a symbol found in a ROM table, or the raw code that no entry holds. -/
inductive Name where
  | known (s : Symbol)
  | unknown (c : Byte)
deriving DecidableEq, Repr, Inhabited

/-- R81. -/
inductive IconState where
  | off
  | on
  | blink
  | raw (n : Byte)
deriving DecidableEq, Repr, Inhabited

/-- R85: the events for the state model's setters. -/
inductive StateEvent where
  | setVolume (v : Byte)
  | mute
  | unmute
  | setZoneText (t : List Byte)
  | setChannelText (t : List Byte)
  | setSoftkeys (ls : List (List Byte))
  | setIcon (n : Name) (s : IconState)
deriving DecidableEq, Repr, Inhabited

/-- R86: the events for the state model's note history. -/
inductive Note where
  | muted
  | unmuted
  | text (n : Name) (t : List Byte)
  | icon (n : Name) (s : IconState)
deriving DecidableEq, Repr, Inhabited

/-- R87: the events for the log sink only. -/
inductive Log where
  | sbepEnter (p1 p2 : Byte)
  | buttonPress (n : Name)
  | buttonRelease (n : Name) (v : Byte)
  | knob (n : Name) (m : Byte)
  | backlight (p1 p2 : Byte)
  | audioOther (v : Byte)
  | chanSelect (p1 p2 : Byte)
  | chanAck (p1 p2 : Byte)
  | outerUnknown (a p1 p2 f : Option Byte)
  | sbepUnknown (w : List Byte) (a s l op : Option Byte)
deriving DecidableEq, Repr, Inhabited

/-- R84: an event is of one of three classes. -/
inductive Event where
  | state (e : StateEvent)
  | note (n : Note)
  | log (l : Log)
deriving DecidableEq, Repr, Inhabited

/-- R241, R244: what the encoder issues to the transport and to the delay collaborator. -/
inductive Prim where
  | sendOuter (a p1 p2 f : Byte)
  | enterSub (m : Byte)
  | leaveSub
  | sendSub (op : Byte) (payload : List Byte)
  | recvSub
  | waitQuiet
  | delay (t : Nat)
deriving DecidableEq, Repr, Inhabited

/-- R242: why a primitive failed. -/
inductive FailKind where
  | timeout
  | disconnect
  | other
deriving DecidableEq, Repr, Inhabited

/-- R242: one response of the transport. `ok` carries the reply `(opcode, data)` that RecvSub returns; every other
primitive's success value is `Ok`, and it reads neither (log 3). -/
inductive Response where
  | ok (opcode : Byte) (data : List Byte)
  | fail (kind : FailKind)
deriving DecidableEq, Repr, Inhabited

/-- R241: the response `Ok` of a primitive that returns no value. -/
def Response.done : Response := .ok 0x00 []

/-- R260: the error kinds with their sub-causes and recorded info. -/
inductive CmdError where
  /-- ConfigError, VariantMismatch: the requested variant. -/
  | variantMismatch (v : Symbol)
  /-- RangeError, Channel. -/
  | channel (ch : Int)
  /-- RangeError, TextLength. -/
  | textLength (n : Nat)
  /-- RangeError, BulkRange. -/
  | bulkRange (start endAddr : Nat)
  /-- RangeError, BulkEnd. -/
  | bulkEnd (endAddr : Nat)
  /-- LookupError, LampName. -/
  | lampName (name : Symbol)
  /-- LookupError, ModuleCode. -/
  | moduleCode (m : Byte)
  /-- ProtocolReplyError, BadOpcode: the chunk address and the received opcode. -/
  | badOpcode (cur : Nat) (opcode : Byte)
  /-- ProtocolReplyError, AddressMismatch: the chunk address and the echoed bytes, fewer than three if short. -/
  | addressMismatch (cur : Nat) (echo : List Byte)
  /-- ProtocolReplyError, LengthMismatch: the chunk address and the number of data bytes after the echo. -/
  | lengthMismatch (cur : Nat) (n : Nat)
  /-- TransportError: the failure and the step that failed. -/
  | transport (kind : FailKind) (k : Nat)
  /-- IllegalCommand: the command code byte, or Absent for an empty word. -/
  | illegalCommand (code : Option Byte)
deriving DecidableEq, Repr, Inhabited

/-- R240: what the command-result port carries. -/
inductive CmdResult where
  | ok
  | okBytes (data : List Byte)
  | error (e : CmdError)
deriving DecidableEq, Repr, Inhabited

/-- R240: one item of an output port. `decoded` is the ordered event list of one decode transaction (R84, R110);
`issued` is a primitive sent to the transport or the delay; `constructed` is the construct port's report, `none` for Ok
(R290). -/
inductive Output where
  | decoded (es : List Event)
  | issued (p : Prim)
  | progress (a : BitVec 24)
  | result (r : CmdResult)
  | constructed (e : Option CmdError)
deriving DecidableEq, Repr, Inhabited

/-- R240: one item of an input port: a construction, a decode request, or a command request. -/
inductive Request where
  | construct (rom : Rom) (v : Symbol)
  | window (w : List Byte)
  | command (w : List Byte)
deriving DecidableEq, Repr, Inhabited

/-- Why the machine makes no further step. -/
inductive Fault where
  /-- Raised by `step` while a transport primitive is outstanding and no response is left: the block is stuck at that step
  (R301, I11). Safe: with an empty response list no response ever comes. -/
  | noResponse
deriving DecidableEq, Repr, Inhabited

/-- Why a request has no step. -/
inductive Refusal where
  /-- Raised by an arm of `exec` that has no meaning yet. Safe. -/
  | notModelled (mnemonic : String)
  /-- Raised by every meaning while `op` is not Operational: R266 says such a request is refused. Safe. -/
  | notOperational
deriving DecidableEq, Repr, Inhabited

/-- R34: the block's whole state, R8's parameters, and the model's own view of the ports (log 2, 3, 22) and of the free
values drawn (log 11). -/
structure State where
  op : OpState
  cfg : Rom
  params : Params
  mode : Mode
  seq : Seq
  bulk : BulkRegs
  requests : List Request
  responses : List Response
  trace : List Output
  draws : Nat
deriving DecidableEq, Repr, Inhabited

/-- R291: the state after a successful construction. The ROM is TC (DESIGN CHOICE, log 6), the parameters R8's defaults
(log 7), the bulk-read registers zero, empty and false (DESIGN CHOICE, log 8), and the ports empty. -/
def State.reset : State :=
  { op := .operational
    cfg := tc
    params := Params.defaults
    mode := .idle
    seq := .ready
    bulk := { cur := 0, endAddr := 0, modsel := 0x00, acc := [], progress := false }
    requests := []
    responses := []
    trace := []
    draws := 0 }

end Sys2Proof.Machine
end

