-- ==== Sys2Proof/Machine/Operands.lean ====
section
/-! DEFINITION. The values the meanings compute: names, icon states, texts, softkeys, template fills, payloads, addresses and
the frequency step. -/

namespace Sys2Proof.Machine

/-! ### Decoder values -/

/-- R80, R25. -/
def buttonName (rom : Rom) (c : Byte) : Name :=
  match rom.buttonTable.lookup c with
  | some e => .known e.name
  | none => .unknown c

/-- R25, R114: true for the volume knob's code. -/
def isVolumeKnob (rom : Rom) (c : Byte) : Bool :=
  match rom.buttonTable.lookup c with
  | some e => e.volume
  | none => false

/-- R80, R26. -/
def iconName (rom : Rom) (c : Byte) : Name :=
  match rom.iconTable.lookup c with
  | some s => .known s
  | none => .unknown c

/-- R80, R27. -/
def subdevName (rom : Rom) (c : Byte) : Name :=
  match rom.subdevTable.lookup c with
  | some e => .known e.name
  | none => .unknown c

/-- R142: the sub-device's role, if the table holds its code. -/
def subdevRole (rom : Rom) (c : Byte) : Option Role :=
  match rom.subdevTable.lookup c with
  | some e => some e.role
  | none => none

/-- R81: the icon state of an SBEP opcode. -/
def iconState (op : Byte) : IconState :=
  if op = 0x00 then .off
  else if op = 0x01 ∨ op = 0x02 then .on
  else if op = 0xFE then .blink
  else .raw op

/-- R81: the text form of `Raw(n)`, the decimal numeral of `n` with no leading zeros. -/
def rawText (n : Byte) : List Byte :=
  let digit (d : Nat) : Byte := BitVec.ofNat 8 (0x30 + d)
  if n.toNat < 10 then [digit n.toNat]
  else if n.toNat < 100 then [digit (n.toNat / 10), digit (n.toNat % 10)]
  else [digit (n.toNat / 100), digit (n.toNat / 10 % 10), digit (n.toNat % 10)]

/-- R82: `text(p)`, without the trailing run of 0x00 bytes. -/
def stripNul : List Byte → List Byte
  | [] => []
  | b :: bs =>
    match stripNul bs with
    | [] => if b = 0x00 then [] else [b]
    | c :: cs => b :: c :: cs

/-- R83: split at every '^' byte; `n` separators give `n + 1` segments. -/
def splitCaret : List Byte → List (List Byte)
  | [] => [[]]
  | b :: bs =>
    if b = 0x5E then [] :: splitCaret bs
    else
      match splitCaret bs with
      | [] => [[b]]
      | seg :: segs => (b :: seg) :: segs

/-- R83: the softkey labels; the segment before the first '^' is dropped. -/
def softkeys (t : List Byte) : List (List Byte) := (splitCaret t).drop 1

/-! ### Encoder values -/

/-- R171: the template with both parameters as its own bytes. -/
def frame (t : Template) : Prim := .sendOuter t.address t.param1 t.param2 t.function

/-- R171: `frame(T, p1 := x, p2 := y)`. -/
def frameP1P2 (t : Template) (x y : Byte) : Prim := .sendOuter t.address x y t.function

/-- R171: `frame(T, p2 := y)`. -/
def frameP2 (t : Template) (y : Byte) : Prim := .sendOuter t.address t.param1 y t.function

/-- R173: the sub-protocol bracket. -/
def bracket (m op : Byte) (payload : List Byte) : List Prim := [.enterSub m, .sendSub op payload, .leaveSub]

/-- R28, R176: some entry of MODULE_TABLE has this byte as its value. An entry that an earlier one with the same key
hides is no entry of the map (log 12). -/
def knownModule (rom : Rom) (m : Byte) : Bool :=
  rom.moduleTable.any fun e => decide (e.2 = m) && decide (rom.moduleTable.lookup e.1 = some m)

/-- R180: the lamp id of the operand; a numeric id is not checked. -/
def lampId (rom : Rom) : Lamp → Option Byte
  | .byId id => some id
  | .byName name => rom.lampTable.lookup name

/-- R8, R180, D21: `lamp_payload(id, function)`, 3 bytes. -/
def lampPayload (ps : Params) (id function : Byte) : List Byte :=
  match ps.lampOverrides.lookup (id, function) with
  | some (x, y, z) => [x, y, z]
  | none => [id, function, 0x00]

/-- R179: the display-text payload: the text and an equal-length zero-filled attribute block, after the offset byte when
`display_offset_prefix` is set. -/
def textPayload (ps : Params) (offset : Byte) (text : List Byte) : List Byte :=
  let body := text ++ List.replicate text.length 0x00
  if ps.offsetPrefix then offset :: body else body

/-- R182: "value masked to one byte". -/
def lowByte (v : Word32) : Byte := v.extractLsb' 0 8

/-- R183: any nonzero flag sends 1. -/
def flagByte (flag : Byte) : Byte := if flag = 0x00 then 0x00 else 0x01

/-- R53: the 3-byte big-endian address. -/
def addr3 (a : Nat) : List Byte := [BitVec.ofNat 8 (a / 0x10000), BitVec.ofNat 8 (a / 0x100), BitVec.ofNat 8 a]

/-- R184: `hz / 6250` rounded to the nearest integer, a tie to the even neighbour. -/
def roundStep (hz : Nat) : Nat :=
  let q := hz / Config.freqStepHz
  let r := hz % Config.freqStepHz
  if 2 * r < Config.freqStepHz then q
  else if Config.freqStepHz < 2 * r then q + 1
  else if q % 2 = 0 then q
  else q + 1

/-- R184: the channel step, before the wrap. -/
def freqStep (hz : Nat) : Int := (roundStep hz : Int) - Config.freqBase

/-- R184: the 16-bit two's-complement wrap of the step. -/
def freqWord (hz : Nat) : BitVec 16 := BitVec.ofInt 16 (freqStep hz)

/-- R184: the high byte. -/
def freqHi (hz : Nat) : Byte := (freqWord hz).extractLsb' 8 8

/-- R184: the low byte. -/
def freqLo (hz : Nat) : Byte := (freqWord hz).extractLsb' 0 8

/-- R213: the checks of a reply against the chunk address, in their order. -/
def checkReply (rom : Rom) (cur : Nat) (opcode : Byte) (data : List Byte) : Option CmdError :=
  if opcode ≠ rom.eeReplyOpcode then some (.badOpcode cur opcode)
  else if data.length < 3 ∨ slice data 0 3 ≠ addr3 cur then some (.addressMismatch cur (slice data 0 3))
  else if data.length - 3 ≠ Config.chunk then some (.lengthMismatch cur (data.length - 3))
  else none

/-- R260: the numeric code of an error's kind. -/
def CmdError.code : CmdError → Nat
  | .variantMismatch _ => 1
  | .channel _ => 2
  | .textLength _ => 2
  | .bulkRange _ _ => 2
  | .bulkEnd _ => 2
  | .lampName _ => 3
  | .moduleCode _ => 3
  | .badOpcode _ _ => 4
  | .addressMismatch _ _ => 4
  | .lengthMismatch _ _ => 4
  | .transport _ _ => 5
  | .illegalCommand _ => 6

end Sys2Proof.Machine
end

