-- ==== Sys2Proof/Machine/Ops.lean ====
section
/-! DEFINITION. The named operations on the state: output, the operational guard, construction, ending a command
transaction, and raising an error. -/

namespace Sys2Proof.Machine

/-- An output port takes one more item. -/
def State.put (s : State) (o : Output) : State := { s with trace := s.trace ++ [o] }

/-- R31: the mode register is written. -/
def State.setMode (s : State) (m : Mode) : State := { s with mode := m }

/-- R21: the sequencer step register is written. -/
def State.setSeq (s : State) (q : Seq) : State := { s with seq := q }

/-- R32: the bulk-read registers are written. -/
def State.setBulk (s : State) (b : BulkRegs) : State := { s with bulk := b }

/-- R32, I14: the bulk-read registers become unspecified: a free value (log 9). -/
def State.drawBulk (s : State) : State := { s with bulk := Config.freeBulk s.draws, draws := s.draws + 1 }

/-- R110, R170, R266: a transaction needs `op == Operational`; otherwise the request is refused. -/
def whenOperational (s : State) (run : State → State) : Host.Outcome State Fault Refusal :=
  if s.op = .operational then .next (run s) else .refused .notOperational

/-- R84, R110: a decode transaction returns its ordered event list. -/
def emit (es : List Event) (s : State) : State := s.put (.decoded es)

/-- R32: the bulk-read registers exist only while a read-eeprom is in progress; when it ends they become unspecified. No
other command writes them (R34). -/
def releaseBulk (s : State) : State :=
  match s.seq with
  | .step (.readEeprom _ _ _ _) _ => s.drawBulk
  | _ => s

/-- R10, R21: a return or a raise ends the command transaction: what it accumulated is released, `seq` becomes Ready,
and the command-result port reports. -/
def endTransaction (r : CmdResult) (s : State) : State := ((releaseBulk s).setSeq .ready).put (.result r)

/-- R10, R170: `return v`, the transaction ends successfully. -/
def finish (r : CmdResult) (s : State) : State := endTransaction r s

/-- R263: raising an error, the block's one abort. `seq` becomes Ready, what the transaction accumulated is discarded,
the kind, sub-cause and info are reported, and `mode` and `cfg` stay. There is no return from an error and nothing to
restore (R264). -/
def raise (e : CmdError) (s : State) : State := endTransaction (.error e) s

/-- R290, R291: construction. A mismatched variant leaves `op` at ConfigFault and every register but `cfg` unspecified:
free values (log 10). A match leaves the bulk-read registers unspecified (log 9). -/
def construct (rom : Rom) (v : Symbol) (s : State) : State :=
  if v ≠ rom.variant then
    ({ s with
        op := .configFault
        cfg := rom
        mode := Config.freeMode s.draws
        seq := Config.freeSeq s.draws }.drawBulk).put (.constructed (some (.variantMismatch v)))
  else
    ({ s with op := .operational, cfg := rom, mode := .idle, seq := .ready }.drawBulk).put (.constructed none)

end Sys2Proof.Machine
end

