-- ==== Sys2Proof/Machine/Steps.lean ====
section
/-! DEFINITION. The pseudocode of every command as its primitives by step index: what `issue` sends at step `k`. -/

namespace Sys2Proof.Machine

/-- R174. -/
def enterScanSteps (rom : Rom) : List Prim := [frame rom.tScan]

/-- R175. -/
def resetSteps (rom : Rom) : List Prim := [frame rom.tReset]

/-- R176. -/
def enterSubSteps (m : Byte) : List Prim := [.enterSub m]

/-- R177: select, then ack-request. -/
def setChannelSteps (rom : Rom) (ch : Word32) : List Prim := [frameP2 rom.tChanSelect (lowByte ch), frame rom.tChanAck]

/-- R178. -/
def sendButtonSteps (rom : Rom) (code val : Byte) : List Prim := [.sendOuter rom.fpAddr code val rom.fnButton]

/-- R179. -/
def displayTextSteps (rom : Rom) (ps : Params) (offset : Byte) (text : List Byte) : List Prim :=
  bracket rom.textModule rom.textOpcode (textPayload ps offset text)

/-- R180; empty for a name that is not in LAMP_TABLE, which validation has rejected. -/
def lampControlSteps (rom : Rom) (ps : Params) (lamp : Lamp) (function : Byte) : List Prim :=
  match lampId rom lamp with
  | some id => bracket rom.lampModule rom.lampOpcode (lampPayload ps id function)
  | none => []

/-- R181. -/
def illumLevelSteps (rom : Rom) (id level : Byte) : List Prim := [frameP1P2 rom.tIllum id level]

/-- R182. -/
def genericEventSteps (rom : Rom) (id : Byte) (value : Word32) : List Prim := [frameP1P2 rom.tGeneric id (lowByte value)]

/-- R183. -/
def audioEnableSteps (rom : Rom) (flag : Byte) : List Prim := [frameP2 rom.tAudio (flagByte flag)]

/-- R185: the high byte in param1, the low byte in param2 (R54). -/
def setRxFreqSteps (rom : Rom) (hz : Word32) : List Prim := [frameP1P2 rom.tRxFreq (freqHi hz.toNat) (freqLo hz.toNat)]

/-- R186. -/
def setTxFreqSteps (rom : Rom) (hz : Word32) : List Prim := [frameP1P2 rom.tTxFreq (freqHi hz.toNat) (freqLo hz.toNat)]

/-- R211, R212, R217: the primitive of each READ_EEPROM step, from the bulk-read registers. -/
def readEepromPrim (rom : Rom) (b : BulkRegs) (k : Nat) : Option Prim :=
  match k with
  | 0 => some (frame rom.tScan)
  | 1 => some .waitQuiet
  | 2 => some (frameP2 rom.tModsel b.modsel)
  | 3 => some (.delay rom.settleDelay)
  | 4 => some (.enterSub rom.eeModule)
  | 5 => some (.sendSub rom.eeReadOpcode (addr3 b.cur))
  | 6 => some .recvSub
  | 7 => some .leaveSub
  | _ => none

/-- The primitive of step `k` of a command, if it has such a step. A decode class and an illegal word issue nothing. -/
def primOf (s : State) (cmd : Instr) (k : Nat) : Option Prim :=
  match cmd with
  | .decEnterSbep _ _ => none
  | .decButton _ _ => none
  | .decKnob _ _ => none
  | .decBacklight _ _ => none
  | .decAudioMute _ _ => none
  | .decChanSelect _ _ => none
  | .decChanAck _ _ => none
  | .decOuterOther _ _ _ _ => none
  | .decSbText _ _ => none
  | .decSbIcon _ _ => none
  | .decSbOther _ => none
  | .enterScan => (enterScanSteps s.cfg)[k]?
  | .reset => (resetSteps s.cfg)[k]?
  | .enterSub m => (enterSubSteps m)[k]?
  | .setChannel ch => (setChannelSteps s.cfg ch)[k]?
  | .sendButton code val => (sendButtonSteps s.cfg code val)[k]?
  | .displayText offset text => (displayTextSteps s.cfg s.params offset text)[k]?
  | .lampControl lamp fn => (lampControlSteps s.cfg s.params lamp fn)[k]?
  | .illumLevel id level => (illumLevelSteps s.cfg id level)[k]?
  | .genericEvent id value => (genericEventSteps s.cfg id value)[k]?
  | .audioEnable flag => (audioEnableSteps s.cfg flag)[k]?
  | .setRxFreq hz => (setRxFreqSteps s.cfg hz)[k]?
  | .setTxFreq hz => (setTxFreqSteps s.cfg hz)[k]?
  | .readEeprom _ _ _ _ => readEepromPrim s.cfg s.bulk k
  | .illegal _ => none

end Sys2Proof.Machine
end

