-- ==== Sys2Proof/Machine/Sequencer.lean ====
section
/-! DEFINITION. The encoder's sequencer: entering a step, what a response does at a step, and running a command transaction
as far as the responses reach (log 1). -/

namespace Sys2Proof.Machine

/-- R21, R170: `seq <- Step(cmd, k)` and its primitive is issued. A command with no step `k` has run through its
pseudocode and returns Ok. -/
def enterStep (cmd : Instr) (k : Nat) (s : State) : State :=
  match primOf s cmd k with
  | some p => (s.setSeq (.step cmd k)).put (.issued p)
  | none => finish .ok s

/-- R214: a good chunk is appended, its progress is emitted if asked for, and `cur` moves on by one chunk (R212). -/
def acceptChunk (data : List Byte) (s : State) : State :=
  let a := s.bulk.cur
  let s1 := s.setBulk { s.bulk with acc := s.bulk.acc ++ slice data 3 (3 + Config.chunk), cur := a + Config.chunk }
  if s.bulk.progress then s1.put (.progress (BitVec.ofNat 24 a)) else s1

/-- R212, R213, R217: a reply at step 6. A good chunk leads to the next request, or to LeaveSub after the last chunk. -/
def receiveChunk (cmd : Instr) (opcode : Byte) (data : List Byte) (s : State) : State :=
  match checkReply s.cfg s.bulk.cur opcode data with
  | some e => raise e s
  | none =>
    let s1 := acceptChunk data s
    if s1.bulk.cur < s1.bulk.endAddr then enterStep cmd 5 s1 else enterStep cmd 7 s1

/-- R217: what an Ok response does at step `k` of READ_EEPROM. -/
def advanceBulk (cmd : Instr) (k : Nat) (opcode : Byte) (data : List Byte) (s : State) : State :=
  match k with
  | 6 => receiveChunk cmd opcode data s
  | 7 => finish (.okBytes s.bulk.acc) s
  | k => enterStep cmd (k + 1) s

/-- R21, R217: what an Ok response does at step `k` of a command. -/
def advanceOk (cmd : Instr) (k : Nat) (opcode : Byte) (data : List Byte) (s : State) : State :=
  match cmd with
  | .readEeprom m start endAddr progress => advanceBulk (.readEeprom m start endAddr progress) k opcode data s
  | cmd => enterStep cmd (k + 1) s

/-- R10, R170, R242: one response to the outstanding transport primitive. A failure raises TransportError at once. -/
def respond (r : Response) (s : State) : State :=
  match s.seq with
  | .ready => s
  | .step cmd k =>
    match r with
    | .ok opcode data => advanceOk cmd k opcode data s
    | .fail kind => raise (.transport kind k) s

/-- R244: the primitive is the delay collaborator's, not the transport's. -/
def isDelay (p : Option Prim) : Bool :=
  match p with
  | some (.delay _) => true
  | _ => false

/-- R217, R244: the outstanding primitive is Delay. -/
def waitsForDelay (s : State) : Bool :=
  match s.seq with
  | .ready => false
  | .step cmd k => isDelay (primOf s cmd k)

/-- R244: Delay "completes with `Ok`" and "never fails". It takes no transport response (log 3). -/
def passDelay (s : State) : State :=
  match s.seq with
  | .ready => s
  | .step cmd k => if waitsForDelay s then advanceOk cmd k 0x00 [] s else s

/-- R4, R59, R170: the transaction runs on the responses in order until it ends or waits for a response that is not
there. Responses that it does not need stay. -/
def drain : List Response → State → State
  | [], s => { s with responses := [] }
  | r :: rs, s =>
    match s.seq with
    | .ready => { s with responses := r :: rs }
    | .step _ _ => drain rs (respond r (passDelay s))

/-- R170: a command that has passed its checks starts at step 0 and runs. -/
def runCommand (cmd : Instr) (s : State) : State := drain s.responses (enterStep cmd 0 s)

/-- R244, R301: a transaction in progress goes on with the next responses. With none, an outstanding Delay completes,
and with any other primitive outstanding the block is stuck. -/
def resume (s : State) : Host.Outcome State Fault Refusal :=
  match s.responses with
  | [] => if waitsForDelay s then .next (passDelay s) else .fault .noResponse
  | r :: rs => .next (drain (r :: rs) s)

end Sys2Proof.Machine
end

