-- ==== Sys2Proof/Machine/BulkRead.lean ====
section
/-! DEFINITION. READ_EEPROM (43_bulk_read.md). Its steps are in Steps.lean and Sequencer.lean. -/

namespace Sys2Proof.Machine

/-- R32, R212: the bulk-read registers at the start of the command (log 14). -/
def loadBulk (module : Byte) (start endAddr : Word32) (progress : Byte) (s : State) : State :=
  s.setBulk
    { cur := start.toNat
      endAddr := endAddr.toNat
      modsel := module
      acc := []
      progress := decide (progress ≠ 0x00) }

/-- R210 to R216: the range check, then the end check, then the transfer. -/
def execReadEeprom (module : Byte) (start endAddr : Word32) (progress : Byte) (s : State) :
    Host.Outcome State Fault Refusal :=
  whenOperational s fun s =>
    if ¬ start.toNat < endAddr.toNat then raise (.bulkRange start.toNat endAddr.toNat) s
    else if ¬ endAddr.toNat ≤ Config.eeLimit then raise (.bulkEnd endAddr.toNat) s
    else runCommand (.readEeprom module start endAddr progress) (loadBulk module start endAddr progress s)

end Sys2Proof.Machine
end

