-- ==== Sys2Proof/Machine/Commands.lean ====
section
/-! DEFINITION. The meanings of the single-transfer commands (42_encode_commands.md). Every check comes before the first
primitive (R170, D16). -/

namespace Sys2Proof.Machine

/-- R174. -/
def execEnterScan (s : State) : Host.Outcome State Fault Refusal :=
  whenOperational s fun s => runCommand .enterScan s

/-- R175: a frame on the bus; the block is not reset (D32). -/
def execReset (s : State) : Host.Outcome State Fault Refusal :=
  whenOperational s fun s => runCommand .reset s

/-- R176. -/
def execEnterSub (m : Byte) (s : State) : Host.Outcome State Fault Refusal :=
  whenOperational s fun s => if knownModule s.cfg m then runCommand (.enterSub m) s else raise (.moduleCode m) s

/-- R177: `0 ≤ ch < 255`. -/
def execSetChannel (ch : Word32) (s : State) : Host.Outcome State Fault Refusal :=
  whenOperational s fun s =>
    if 0 ≤ ch.toInt ∧ ch.toInt < Config.chLimit then runCommand (.setChannel ch) s else raise (.channel ch.toInt) s

/-- R178. -/
def execSendButton (code val : Byte) (s : State) : Host.Outcome State Fault Refusal :=
  whenOperational s fun s => runCommand (.sendButton code val) s

/-- R179: at most 14 characters. -/
def execDisplayText (offset : Byte) (text : List Byte) (s : State) : Host.Outcome State Fault Refusal :=
  whenOperational s fun s =>
    if text.length ≤ Config.textMax then runCommand (.displayText offset text) s else raise (.textLength text.length) s

/-- R180: a name must be a key of LAMP_TABLE; a numeric id is not checked. -/
def execLampControl (lamp : Lamp) (function : Byte) (s : State) : Host.Outcome State Fault Refusal :=
  whenOperational s fun s =>
    match lamp with
    | .byId id => runCommand (.lampControl (.byId id) function) s
    | .byName name =>
      match s.cfg.lampTable.lookup name with
      | some _ => runCommand (.lampControl (.byName name) function) s
      | none => raise (.lampName name) s

/-- R181. -/
def execIllumLevel (id level : Byte) (s : State) : Host.Outcome State Fault Refusal :=
  whenOperational s fun s => runCommand (.illumLevel id level) s

/-- R182. -/
def execGenericEvent (id : Byte) (value : Word32) (s : State) : Host.Outcome State Fault Refusal :=
  whenOperational s fun s => runCommand (.genericEvent id value) s

/-- R183. -/
def execAudioEnable (flag : Byte) (s : State) : Host.Outcome State Fault Refusal :=
  whenOperational s fun s => runCommand (.audioEnable flag) s

/-- R185. -/
def execSetRxFreq (hz : Word32) (s : State) : Host.Outcome State Fault Refusal :=
  whenOperational s fun s => runCommand (.setRxFreq hz) s

/-- R186. -/
def execSetTxFreq (hz : Word32) (s : State) : Host.Outcome State Fault Refusal :=
  whenOperational s fun s => runCommand (.setTxFreq hz) s

/-- R91, R172: IllegalCommand, with the command code byte or Absent; no primitive, and `seq` stays Ready. -/
def execIllegal (word : List Byte) (s : State) : Host.Outcome State Fault Refusal :=
  whenOperational s fun s => raise (.illegalCommand (opt word 0)) s

end Sys2Proof.Machine
end

