-- ==== Sys2Proof/Machine/Outer.lean ====
section
/-! DEFINITION. The meanings of the outer decode classes (40_decode_outer.md). -/

namespace Sys2Proof.Machine

/-- R112. -/
def execDecEnterSbep (p1 p2 : Byte) (s : State) : Host.Outcome State Fault Refusal :=
  whenOperational s fun s => emit [.log (.sbepEnter p1 p2)] (s.setMode .sbepPending)

/-- R113. -/
def buttonEvents (rom : Rom) (p1 p2 : Byte) : List Event :=
  if p2 = 0x01 then [.log (.buttonPress (buttonName rom p1))] else [.log (.buttonRelease (buttonName rom p1) p2)]

/-- R113. -/
def execDecButton (p1 p2 : Byte) (s : State) : Host.Outcome State Fault Refusal :=
  whenOperational s fun s => emit (buttonEvents s.cfg p1 p2) s

/-- R114: the state event of the volume knob comes first. -/
def knobEvents (rom : Rom) (p1 p2 : Byte) : List Event :=
  if isVolumeKnob rom p1 then [.state (.setVolume p2), .log (.knob (buttonName rom p1) p2)]
  else [.log (.knob (buttonName rom p1) p2)]

/-- R114. -/
def execDecKnob (p1 p2 : Byte) (s : State) : Host.Outcome State Fault Refusal :=
  whenOperational s fun s => emit (knobEvents s.cfg p1 p2) s

/-- R115. -/
def execDecBacklight (p1 p2 : Byte) (s : State) : Host.Outcome State Fault Refusal :=
  whenOperational s fun s => emit [.log (.backlight p1 p2)] s

/-- R116: 1 unmutes, 0 mutes, any other value is only logged (D7). -/
def audioMuteEvents (p2 : Byte) : List Event :=
  if p2 = 0x01 then [.state .unmute, .note .unmuted]
  else if p2 = 0x00 then [.state .mute, .note .muted]
  else [.log (.audioOther p2)]

/-- R116; param1 is not read. -/
def execDecAudioMute (_p1 p2 : Byte) (s : State) : Host.Outcome State Fault Refusal :=
  whenOperational s fun s => emit (audioMuteEvents p2) s

/-- R117. -/
def execDecChanSelect (p1 p2 : Byte) (s : State) : Host.Outcome State Fault Refusal :=
  whenOperational s fun s => emit [.log (.chanSelect p1 p2)] s

/-- R118. -/
def execDecChanAck (p1 p2 : Byte) (s : State) : Host.Outcome State Fault Refusal :=
  whenOperational s fun s => emit [.log (.chanAck p1 p2)] s

/-- R119. -/
def execDecOuterOther (a p1 p2 f : Option Byte) (s : State) : Host.Outcome State Fault Refusal :=
  whenOperational s fun s => emit [.log (.outerUnknown a p1 p2 f)] s

end Sys2Proof.Machine
end

