-- ==== Sys2Proof/Machine/Sbep.lean ====
section
/-! DEFINITION. The meanings of the SBEP decode classes (41_decode_sbep.md). Each first sets the mode back to Idle (R140). -/

namespace Sys2Proof.Machine

/-- R142: the state event that a display text has under its sub-device's role, if any. -/
def textStateEvents (role : Option Role) (t : List Byte) : List Event :=
  match role with
  | some .zone => [.state (.setZoneText t)]
  | some .channel => [.state (.setChannelText t)]
  | some .softkeys => [.state (.setSoftkeys (softkeys t))]
  | some .other => []
  | none => []

/-- R142: the role's setter, then always the note. -/
def sbTextEvents (rom : Rom) (sa : Byte) (payload : List Byte) : List Event :=
  textStateEvents (subdevRole rom sa) (stripNul payload) ++ [.note (.text (subdevName rom sa) (stripNul payload))]

/-- R140, R142. -/
def execDecSbText (sa : Byte) (payload : List Byte) (s : State) : Host.Outcome State Fault Refusal :=
  whenOperational s fun s => emit (sbTextEvents s.cfg sa payload) (s.setMode .idle)

/-- R143. -/
def sbIconEvents (rom : Rom) (sa op : Byte) : List Event :=
  [.state (.setIcon (iconName rom sa) (iconState op)), .note (.icon (iconName rom sa) (iconState op))]

/-- R140, R143. -/
def execDecSbIcon (sa op : Byte) (s : State) : Host.Outcome State Fault Refusal :=
  whenOperational s fun s => emit (sbIconEvents s.cfg sa op) (s.setMode .idle)

/-- R140, R144: the whole window and the header fields, each Present or Absent. -/
def execDecSbOther (w : List Byte) (s : State) : Host.Outcome State Fault Refusal :=
  whenOperational s fun s =>
    emit [.log (.sbepUnknown w (opt w 0) (opt w 1) (opt w 2) (opt w 4))] (s.setMode .idle)

end Sys2Proof.Machine
end

