-- ==== Sys2Proof/Machine/Dispatch.lean ====
section
/-! DEFINITION. One arm per constructor of Instr. -/

namespace Sys2Proof.Machine

def exec (i : Instr) (s : State) : Host.Outcome State Fault Refusal :=
  match i with
  | .decEnterSbep p1 p2 => Sys2Proof.Machine.execDecEnterSbep p1 p2 s
  | .decButton p1 p2 => Sys2Proof.Machine.execDecButton p1 p2 s
  | .decKnob p1 p2 => Sys2Proof.Machine.execDecKnob p1 p2 s
  | .decBacklight p1 p2 => Sys2Proof.Machine.execDecBacklight p1 p2 s
  | .decAudioMute p1 p2 => Sys2Proof.Machine.execDecAudioMute p1 p2 s
  | .decChanSelect p1 p2 => Sys2Proof.Machine.execDecChanSelect p1 p2 s
  | .decChanAck p1 p2 => Sys2Proof.Machine.execDecChanAck p1 p2 s
  | .decOuterOther a p1 p2 f => Sys2Proof.Machine.execDecOuterOther a p1 p2 f s
  | .decSbText sa payload => Sys2Proof.Machine.execDecSbText sa payload s
  | .decSbIcon sa op => Sys2Proof.Machine.execDecSbIcon sa op s
  | .decSbOther w => Sys2Proof.Machine.execDecSbOther w s
  | .enterScan => Sys2Proof.Machine.execEnterScan s
  | .reset => Sys2Proof.Machine.execReset s
  | .enterSub m => Sys2Proof.Machine.execEnterSub m s
  | .setChannel ch => Sys2Proof.Machine.execSetChannel ch s
  | .sendButton code val => Sys2Proof.Machine.execSendButton code val s
  | .displayText offset text => Sys2Proof.Machine.execDisplayText offset text s
  | .lampControl lamp fn => Sys2Proof.Machine.execLampControl lamp fn s
  | .illumLevel id level => Sys2Proof.Machine.execIllumLevel id level s
  | .genericEvent id value => Sys2Proof.Machine.execGenericEvent id value s
  | .audioEnable flag => Sys2Proof.Machine.execAudioEnable flag s
  | .setRxFreq hz => Sys2Proof.Machine.execSetRxFreq hz s
  | .setTxFreq hz => Sys2Proof.Machine.execSetTxFreq hz s
  | .readEeprom m start endAddr progress => Sys2Proof.Machine.execReadEeprom m start endAddr progress s
  | .illegal word => Sys2Proof.Machine.execIllegal word s

end Sys2Proof.Machine
end

