-- ==== Sys2Proof/Machine/Fetch.lean ====
section
/-! DEFINITION. What the step reads from the request port, and how a table word is placed there. -/

namespace Sys2Proof.Machine

/-- R76, R94: the class of a window under the state's ROM, parameters and mode. -/
def windowInstr (s : State) (w : List Byte) : Instr := decode s.cfg s.params s.mode.port w

/-- R172: the command of a command word. -/
def commandInstr (s : State) (w : List Byte) : Instr := decode s.cfg s.params .command w

/-- R11, R21: a transaction is in progress exactly when the block is Operational and `seq` is not Ready. -/
def inProgress (s : State) : Bool := decide (s.op = .operational) && decide (s.seq ≠ .ready)

/-- R240: the request that carries a table word, by its port. -/
def tableRequest (nbits w : Nat) : Request :=
  match tablePort nbits with
  | .outer => .window (tableBytes nbits w)
  | .sbep => .window (tableBytes nbits w)
  | .command => .command (tableBytes nbits w)

/-- R76: the mode in which a table word's format applies; a command word leaves the mode alone. -/
def tableMode (nbits : Nat) (m : Mode) : Mode :=
  match tablePort nbits with
  | .outer => .idle
  | .sbep => .sbepPending
  | .command => m

/-- The table word is the next request, in the mode of its format, with no transaction in progress (log 2). -/
def placeWord (s : State) (nbits w : Nat) : State :=
  { s with mode := tableMode nbits s.mode, seq := .ready, requests := tableRequest nbits w :: s.requests }

end Sys2Proof.Machine
end

