-- ==== Sys2Proof/Machine/Step.lean ====
section
/-! DEFINITION. The step. -/

namespace Sys2Proof.Machine

/-- One step: a transaction in progress goes on; otherwise the oldest request is served (R11, R59). With no request the
block is idle and keeps its state (R273). -/
def step (s : State) : Host.Outcome State Fault Refusal :=
  if inProgress s then resume s
  else
    match s.requests with
    | [] => .next s
    | .construct rom v :: rest => .next (construct rom v { s with requests := rest })
    | .window w :: rest => exec (windowInstr s w) { s with requests := rest }
    | .command w :: rest => exec (commandInstr s w) { s with requests := rest }

/-- The state whose next step fetches and runs the table word. -/
def State.withFetchWord (s : State) (nbits w : Nat) : State := placeWord s nbits w

end Sys2Proof.Machine
end

