-- ==== Sys2Proof/Machine/HeadModel.lean ====
section
/-! DEFINITION. The reference contract of the sinks (50_interfaces.md section 3): the virtual-head state model and the log
sink. They are OUTSIDE the block (R3, R35): State holds none of this and the step reads none of it. A reader can follow the
block's events end to end with it (log 26). -/

namespace Sys2Proof.Machine

/-- R247: the display state. -/
structure DisplayState where
  zoneText : List Byte
  channelText : List Byte
  softkeys : List (List Byte)
  icons : List (Name × IconState)
  volume : Option Byte
  muted : Bool
deriving DecidableEq, Repr, Inhabited

/-- R246 to R252: the sinks. `refreshIn` is the time units until the periodic refresh fires, `none` once it is
cancelled. -/
structure HeadModel where
  display : DisplayState
  dirty : Bool
  notes : List Note
  logs : List Log
  refreshIn : Option Nat
deriving DecidableEq, Repr, Inhabited

/-- R246: "trimming trailing whitespace from text". The ASCII white space bytes; DESIGN CHOICE, log 26. -/
def isSpace (b : Byte) : Bool := decide (b = 0x20) || (decide (0x09 ≤ b.toNat) && decide (b.toNat ≤ 0x0D))

/-- R246: a text without its trailing whitespace. -/
def trimEnd : List Byte → List Byte
  | [] => []
  | b :: bs =>
    match trimEnd bs with
    | [] => if isSpace b then [] else [b]
    | c :: cs => b :: c :: cs

/-- R246: a setter stores the new display state and sets the dirty flag only when it differs from the stored one. -/
def HeadModel.store (h : HeadModel) (d : DisplayState) : HeadModel :=
  if d = h.display then h else { h with display := d, dirty := true }

/-- R247: the icon map with one name set. -/
def setIconState (icons : List (Name × IconState)) (n : Name) (st : IconState) : List (Name × IconState) :=
  match icons with
  | [] => [(n, st)]
  | (m, old) :: rest => if m = n then (m, st) :: rest else (m, old) :: setIconState rest n st

/-- R246: the display state after a setter's normalised input. -/
def applySetter (d : DisplayState) : StateEvent → DisplayState
  | .setVolume v => { d with volume := some v }
  | .mute => { d with muted := true }
  | .unmute => { d with muted := false }
  | .setZoneText t => { d with zoneText := trimEnd t }
  | .setChannelText t => { d with channelText := trimEnd t }
  | .setSoftkeys ls => { d with softkeys := ls.map trimEnd }
  | .setIcon n st => { d with icons := setIconState d.icons n st }

/-- R248: "The note history holds at most 100 entries." -/
def noteCapacity : Nat := 100

/-- R248: the oldest entry is removed first when the history is full. -/
def addNote (notes : List Note) (n : Note) : List Note :=
  if notes.length < noteCapacity then notes ++ [n] else notes.drop (notes.length - (noteCapacity - 1)) ++ [n]

/-- R240, R246, R248, R252: one event reaches its sink. R252 leaves it to the log sink whether it takes notes too; here
a note reaches the note history only (DESIGN CHOICE, log 26). -/
def HeadModel.deliver (h : HeadModel) : Event → HeadModel
  | .state e => h.store (applySetter h.display e)
  | .note n => { h with notes := addNote h.notes n }
  | .log l => { h with logs := h.logs ++ [l] }

/-- R88: the sinks receive the events in order. -/
def HeadModel.deliverAll (h : HeadModel) (es : List Event) : HeadModel := es.foldl HeadModel.deliver h

/-- R249. -/
def bucketSize : Nat := 255 / 20

/-- R249: the number of filled slots of the volume histogram. -/
def filledSlots (volume : Byte) : Nat := min 20 (volume.toNat / bucketSize)

/-- R250: the refresh interval. -/
def refreshInterval : Nat := 5

/-- R250: one time unit passes. A firing sets the dirty flag and schedules the next firing. -/
def HeadModel.tick (h : HeadModel) : HeadModel :=
  match h.refreshIn with
  | none => h
  | some n => if n ≤ 1 then { h with dirty := true, refreshIn := some refreshInterval } else { h with refreshIn := some (n - 1) }

/-- R250: the trigger can be cancelled. -/
def HeadModel.cancelRefresh (h : HeadModel) : HeadModel := { h with refreshIn := none }

/-- R251: the two layouts, by `muted`. -/
inductive Layout where
  | normal
  | muted
deriving DecidableEq, Repr, Inhabited

/-- R251: the five sections. -/
inductive Section where
  | iconBar (icons : List (Name × IconState))
  | zoneText (t : List Byte)
  | channelText (t : List Byte)
  | softkeyBar (ls : List (List Byte))
  | volumeHistogram (filled : Nat)
deriving DecidableEq, Repr, Inhabited

/-- R251: the sections in their order; the histogram only if the volume is known. -/
def renderSections (d : DisplayState) : List Section :=
  [.iconBar d.icons, .zoneText d.zoneText, .channelText d.channelText, .softkeyBar d.softkeys] ++
    (match d.volume with
     | some v => [.volumeHistogram (filledSlots v)]
     | none => [])

/-- R251: a render does nothing while the dirty flag is clear; otherwise it emits the sections and clears the flag. -/
def HeadModel.render (h : HeadModel) : HeadModel × Option (Layout × List Section) :=
  if h.dirty then
    ({ h with dirty := false }, some (if h.display.muted then .muted else .normal, renderSections h.display))
  else (h, none)

end Sys2Proof.Machine
end

