-- ==== Sys2Proof/Machine/Assembler.lean ====
section
/-! DEFINITION. The text syntax of commands (R92): a line assembles to one command. The step does not use it. What R92
leaves open (spaces, the identifier's further characters, hexadecimal letter case) is log 19. -/

namespace Sys2Proof.Machine

/-- A piece of a command line. -/
inductive Tok where
  | word (cs : List Char)
  | text (cs : List Char)
  | comma
deriving DecidableEq, Repr, Inhabited

/-- Where the lexer stands: between pieces, in a word, in a quoted text, after a backslash in one. The accumulated
characters are in reverse. -/
inductive LexState where
  | gap
  | word (acc : List Char)
  | quoted (acc : List Char)
  | escaped (acc : List Char)
deriving DecidableEq, Repr, Inhabited

/-- The character that opens and closes a text. -/
def quoteMark : Char := Char.ofNat 0x22

/-- The escape character of a text. -/
def backslash : Char := Char.ofNat 0x5C

/-- R92: printable ASCII. -/
def isPrintable (c : Char) : Bool := decide (0x20 ≤ c.toNat) && decide (c.toNat ≤ 0x7E)

/-- R92: the pieces of a line; `\"` and `\\` are the escapes of a quoted text. -/
def lex : List Char → LexState → Option (List Tok)
  | [], .gap => some []
  | [], .word acc => some [.word acc.reverse]
  | [], .quoted _ => none
  | [], .escaped _ => none
  | c :: cs, .gap =>
    if c = ' ' then lex cs .gap
    else if c = ',' then (lex cs .gap).map (Tok.comma :: ·)
    else if c = quoteMark then lex cs (.quoted [])
    else lex cs (.word [c])
  | c :: cs, .word acc =>
    if c = ' ' then (lex cs .gap).map (Tok.word acc.reverse :: ·)
    else if c = ',' then (lex cs .gap).map fun ts => Tok.word acc.reverse :: Tok.comma :: ts
    else if c = quoteMark then none
    else lex cs (.word (c :: acc))
  | c :: cs, .quoted acc =>
    if c = quoteMark then (lex cs .gap).map (Tok.text acc.reverse :: ·)
    else if c = backslash then lex cs (.escaped acc)
    else if isPrintable c then lex cs (.quoted (c :: acc))
    else none
  | c :: cs, .escaped acc => if c = quoteMark ∨ c = backslash then lex cs (.quoted (c :: acc)) else none

/-- R92: arguments are separated by commas. -/
def splitArgs : List Tok → Option (List Tok)
  | [] => some []
  | [.comma] => none
  | [t] => some [t]
  | t :: .comma :: rest => if t = .comma ∨ rest = [] then none else (splitArgs rest).map (t :: ·)
  | _ :: _ :: _ => none

/-- The value of a digit, decimal or hexadecimal. -/
def digitValue (c : Char) : Option Nat :=
  let n := c.toNat
  if 0x30 ≤ n ∧ n ≤ 0x39 then some (n - 0x30)
  else if 0x41 ≤ n ∧ n ≤ 0x46 then some (n - 0x41 + 10)
  else if 0x61 ≤ n ∧ n ≤ 0x66 then some (n - 0x61 + 10)
  else none

/-- The value of a string of digits in a base, after those already read. -/
def digitsValue (base : Nat) : List Char → Nat → Option Nat
  | [], acc => some acc
  | c :: cs, acc =>
    match digitValue c with
    | some d => if d < base then digitsValue base cs (acc * base + d) else none
    | none => none

/-- R92: "Numbers are written in decimal or with a `0x` prefix in hexadecimal." -/
def natValue (cs : List Char) : Option Nat :=
  match cs with
  | [] => none
  | ['0', 'x'] => none
  | '0' :: 'x' :: hex => digitsValue 16 hex 0
  | dec => digitsValue 10 dec 0

/-- R90: a u8 argument. -/
def u8Arg : Tok → Option Byte
  | .word cs =>
    match natValue cs with
    | some n => if n < 0x100 then some (BitVec.ofNat 8 n) else none
    | none => none
  | _ => none

/-- R90: a u32 argument. -/
def u32Arg : Tok → Option Word32
  | .word cs =>
    match natValue cs with
    | some n => if n < 0x100000000 then some (BitVec.ofNat 32 n) else none
    | none => none
  | _ => none

/-- R90, R92: the s32 argument `<ch>`, which may be negative. -/
def s32Arg : Tok → Option Word32
  | .word ('-' :: cs) =>
    match natValue cs with
    | some n => if n ≤ 0x80000000 then some (BitVec.ofInt 32 (-(n : Int))) else none
    | none => none
  | .word cs =>
    match natValue cs with
    | some n => if n < 0x80000000 then some (BitVec.ofNat 32 n) else none
    | none => none
  | _ => none

/-- R92: `<flag>` is 0 or 1. -/
def flagArg (t : Tok) : Option Byte :=
  match u8Arg t with
  | some b => if b = 0x00 ∨ b = 0x01 then some b else none
  | none => none

/-- The bytes of ASCII characters. -/
def charBytes (cs : List Char) : List Byte := cs.map fun c => BitVec.ofNat 8 c.toNat

/-- R90, R92: a quoted text of at most 255 characters. -/
def textArg : Tok → Option (List Byte)
  | .text cs => if cs.length ≤ 255 then some (charBytes cs) else none
  | _ => none

/-- An ASCII letter. -/
def isLetter (c : Char) : Bool :=
  (decide (0x41 ≤ c.toNat) && decide (c.toNat ≤ 0x5A)) || (decide (0x61 ≤ c.toNat) && decide (c.toNat ≤ 0x7A))

/-- A further character of an identifier (log 19). -/
def isIdentChar (c : Char) : Bool :=
  isLetter c || (decide (0x30 ≤ c.toNat) && decide (c.toNat ≤ 0x39)) || decide (c = '_') || decide (c = '-')

/-- R92: `<lamp_id>` or `<lamp_name>`, an identifier starting with a letter. -/
def lampArg : Tok → Option Lamp
  | .word [] => none
  | .word (c :: cs) =>
    if isLetter c then
      if cs.all isIdentChar && decide (cs.length < 255) then some (.byName (charBytes (c :: cs))) else none
    else (u8Arg (.word (c :: cs))).map .byId
  | _ => none

/-- R92: the command of a name and its arguments. -/
def assembleArgs (name : List Char) (args : List Tok) : Option Instr :=
  if name = "enter-scan-mode".toList then
    match args with
    | [] => some .enterScan
    | _ => none
  else if name = "reset".toList then
    match args with
    | [] => some .reset
    | _ => none
  else if name = "enter-sub-protocol".toList then
    match args with
    | [m] => (u8Arg m).map .enterSub
    | _ => none
  else if name = "set-channel".toList then
    match args with
    | [ch] => (s32Arg ch).map .setChannel
    | _ => none
  else if name = "send-button-event".toList then
    match args with
    | [code, val] => (u8Arg code).bind fun c => (u8Arg val).map fun v => .sendButton c v
    | _ => none
  else if name = "display-text".toList then
    match args with
    | [text, offset] => (textArg text).bind fun t => (u8Arg offset).map fun o => .displayText o t
    | _ => none
  else if name = "lamp-control".toList then
    match args with
    | [lamp, fn] => (lampArg lamp).bind fun l => (u8Arg fn).map fun f => .lampControl l f
    | _ => none
  else if name = "illumination-level".toList then
    match args with
    | [id, level] => (u8Arg id).bind fun i => (u8Arg level).map fun l => .illumLevel i l
    | _ => none
  else if name = "generic-control-event".toList then
    match args with
    | [id, value] => (u8Arg id).bind fun i => (u32Arg value).map fun v => .genericEvent i v
    | _ => none
  else if name = "audio-enable".toList then
    match args with
    | [flag] => (flagArg flag).map .audioEnable
    | _ => none
  else if name = "set-rx-frequency".toList then
    match args with
    | [hz] => (u32Arg hz).map .setRxFreq
    | _ => none
  else if name = "set-tx-frequency".toList then
    match args with
    | [hz] => (u32Arg hz).map .setTxFreq
    | _ => none
  else if name = "read-eeprom-range".toList then
    match args with
    | [m, start, endAddr] =>
      (u8Arg m).bind fun m => (u32Arg start).bind fun a => (u32Arg endAddr).map fun e => .readEeprom m a e 0x00
    | [m, start, endAddr, .word flag] =>
      if flag = "progress".toList then
        (u8Arg m).bind fun m => (u32Arg start).bind fun a => (u32Arg endAddr).map fun e => .readEeprom m a e 0x01
      else none
    | _ => none
  else none

/-- R92: a line's command. -/
def assemble (line : List Char) : Option Instr :=
  match lex line .gap with
  | some (.word name :: rest) => (splitArgs rest).bind (assembleArgs name)
  | _ => none

/-- R92: "Each line assembles to one command word by rule R90." -/
def assembleWord (rom : Rom) (ps : Params) (line : List Char) : Option (List Byte) := (assemble line).map (encode rom ps)

end Sys2Proof.Machine
end

