-- ==== Sys2Proof/Safety.lean ====
section
/-! DEFINITION. What counts as a legal state, and the words in which the statements speak of runs: the traces and responses
of the commands. -/

namespace Sys2Proof.Machine

/-! ### The invariant -/

/-- R32, R210, R212, R217, R218: the sequencer and the bulk-read registers in the middle of a READ_EEPROM. That the
registers are already loaded at steps 0 to 4 is log 14, and that `cur` at step 7 has moved on by one more chunk, beyond
R32's bound, is R212 as log 15 reads it (both DEDUCED). -/
def bulkLegal (b : BulkRegs) (module : Byte) (start endAddr : Word32) (progress : Byte) (k : Nat) : Prop :=
  k ≤ 7 ∧ start.toNat < endAddr.toNat ∧ endAddr.toNat ≤ Config.eeLimit ∧
  b.endAddr = endAddr.toNat ∧ b.modsel = module ∧ b.progress = decide (progress ≠ 0x00) ∧
  b.cur = start.toNat + b.acc.length ∧ Config.chunk ∣ b.acc.length ∧
  (k ≤ 4 → b.acc = []) ∧ (k ≤ 6 → b.cur < b.endAddr) ∧
  (k = 7 → b.endAddr ≤ b.cur ∧ b.cur < b.endAddr + Config.chunk)

/-- R21, R217: a step of a command transaction that the sequencer can hold: the outstanding primitive exists, and the
command has passed its checks. -/
def stepLegal (s : State) (cmd : Instr) (k : Nat) : Prop :=
  (primOf s cmd k).isSome = true ∧
    match cmd with
    | .enterSub m => knownModule s.cfg m = true
    | .setChannel ch => 0 ≤ ch.toInt ∧ ch.toInt < Config.chLimit
    | .displayText _ text => text.length ≤ Config.textMax
    | .readEeprom m start endAddr progress => bulkLegal s.bulk m start endAddr progress k
    | _ => True

/-- The state invariant: while the block is Operational, `seq` is Ready or a step that a command can be at. -/
def State.Legal (s : State) : Prop :=
  s.op = .operational → ∀ cmd k, s.seq = .step cmd k → stepLegal s cmd k

/-! ### Words for the statements -/

/-- The transaction took these responses and added these outputs; nothing else changed. -/
def State.afterRun (s : State) (rest : List Response) (out : List Output) : State :=
  { s with responses := rest, trace := s.trace ++ out }

/-- A command of one primitive `p` (R174 and the rules like it) in state `s`: it issues `p` and, by the response,
returns Ok, raises TransportError at step 0, or waits at step 0. Nothing else changes. That a missing response leaves
the command waiting at `Step(i, 0)` is R21 and R301, in the form that log 1 gives them. -/
def RunsOnePrimitive (i : Instr) (s : State) (p : Prim) : Prop :=
  (∀ opcode data rest, s.responses = .ok opcode data :: rest →
    exec i s = .next (s.afterRun rest [.issued p, .result .ok])) ∧
  (∀ kind rest, s.responses = .fail kind :: rest →
    exec i s = .next (s.afterRun rest [.issued p, .result (.error (.transport kind 0))])) ∧
  (s.responses = [] → exec i s = .next { s.afterRun [] [.issued p] with seq := .step i 0 })

/-- A command of two primitives (R177) in state `s`: the second is issued only after the Ok of the first. With a
response missing it waits at the step that needs it: R21 and R301, in the form that log 1 gives them. -/
def RunsTwoPrimitives (i : Instr) (s : State) (p q : Prim) : Prop :=
  (∀ o0 d0 o1 d1 rest, s.responses = .ok o0 d0 :: .ok o1 d1 :: rest →
    exec i s = .next (s.afterRun rest [.issued p, .issued q, .result .ok])) ∧
  (∀ kind rest, s.responses = .fail kind :: rest →
    exec i s = .next (s.afterRun rest [.issued p, .result (.error (.transport kind 0))])) ∧
  (∀ o0 d0 kind rest, s.responses = .ok o0 d0 :: .fail kind :: rest →
    exec i s = .next (s.afterRun rest [.issued p, .issued q, .result (.error (.transport kind 1))])) ∧
  (s.responses = [] → exec i s = .next { s.afterRun [] [.issued p] with seq := .step i 0 }) ∧
  (∀ o0 d0, s.responses = [.ok o0 d0] →
    exec i s = .next { s.afterRun [] [.issued p, .issued q] with seq := .step i 1 })

/-- A sub-protocol bracket (R173): three primitives, each after the Ok of the one before; a failure at step 0 or 1
leaves LeaveSub unissued. With a response missing the command waits at the step that needs it: R21 and R301, in the form
that log 1 gives them. -/
def RunsBracket (i : Instr) (s : State) (m op : Byte) (payload : List Byte) : Prop :=
  ∀ (o0 o1 o2 : Byte) (d0 d1 d2 : List Byte) (kind : FailKind) (rest : List Response),
    (s.responses = .ok o0 d0 :: .ok o1 d1 :: .ok o2 d2 :: rest →
      exec i s = .next (s.afterRun rest
        [.issued (.enterSub m), .issued (.sendSub op payload), .issued .leaveSub, .result .ok])) ∧
    (s.responses = .fail kind :: rest →
      exec i s = .next (s.afterRun rest [.issued (.enterSub m), .result (.error (.transport kind 0))])) ∧
    (s.responses = .ok o0 d0 :: .fail kind :: rest →
      exec i s = .next (s.afterRun rest
        [.issued (.enterSub m), .issued (.sendSub op payload), .result (.error (.transport kind 1))])) ∧
    (s.responses = .ok o0 d0 :: .ok o1 d1 :: .fail kind :: rest →
      exec i s = .next (s.afterRun rest
        [.issued (.enterSub m), .issued (.sendSub op payload), .issued .leaveSub,
         .result (.error (.transport kind 2))])) ∧
    (s.responses = [] → exec i s = .next { s.afterRun [] [.issued (.enterSub m)] with seq := .step i 0 }) ∧
    (s.responses = [.ok o0 d0] →
      exec i s = .next { s.afterRun [] [.issued (.enterSub m), .issued (.sendSub op payload)] with seq := .step i 1 }) ∧
    (s.responses = [.ok o0 d0, .ok o1 d1] →
      exec i s = .next { s.afterRun [] [.issued (.enterSub m), .issued (.sendSub op payload), .issued .leaveSub] with
        seq := .step i 2 })

/-- The command is rejected with `e`: no primitive is issued, no response is taken, `seq` stays Ready. -/
def Rejects (i : Instr) (s : State) (e : CmdError) : Prop :=
  exec i s = .next (s.afterRun s.responses [.result (.error e)])

/-- The decode class emits exactly these events and leaves the mode at `m`; nothing else changes. -/
def Emits (i : Instr) (s : State) (m : Mode) (es : List Event) : Prop :=
  exec i s = .next { s with mode := m, trace := s.trace ++ [.decoded es] }

/-- R211: what the preamble issues. -/
def preambleOut (rom : Rom) (module : Byte) : List Output :=
  [.issued (frame rom.tScan), .issued .waitQuiet, .issued (frameP2 rom.tModsel module),
   .issued (.delay rom.settleDelay), .issued (.enterSub rom.eeModule)]

/-- R213: the good replies for the chunks from address `a` on: an Ok to each request, then the reply. -/
def chunkReplies (rom : Rom) : Nat → List (List Byte) → List Response
  | _, [] => []
  | a, c :: cs => .done :: .ok rom.eeReplyOpcode (addr3 a ++ c) :: chunkReplies rom (a + Config.chunk) cs

/-- R212, R214: what the chunk loop outputs for the chunks from address `a` on. -/
def chunkOut (rom : Rom) (progress : Bool) : Nat → List (List Byte) → List Output
  | _, [] => []
  | a, _ :: cs =>
    [.issued (.sendSub rom.eeReadOpcode (addr3 a)), .issued .recvSub] ++
      (if progress then [.progress (BitVec.ofNat 24 a)] else []) ++ chunkOut rom progress (a + Config.chunk) cs

/-- R218: the number of chunks of `[start, end)`. -/
def chunkCount (start endAddr : Nat) : Nat := (endAddr - start + (Config.chunk - 1)) / Config.chunk

/-- The primitives among some outputs. -/
def primsOf (out : List Output) : List Prim :=
  out.filterMap fun o => match o with
    | .issued p => some p
    | _ => none

/-- The results among some outputs. -/
def resultsOf (out : List Output) : List CmdResult :=
  out.filterMap fun o => match o with
    | .result r => some r
    | _ => none

/-- R263: these outputs end or suspend a command: issued primitives and progress reports, and then one result, as the
last output and with `seq` Ready, or nothing yet, while the command waits for a response that is not there (log 1). -/
def ReportsOnceAndLast (out : List Output) (t : State) : Prop :=
  ∃ ps last : List Output, out = ps ++ last ∧
    (∀ o ∈ ps, (∃ p, o = .issued p) ∨ ∃ a, o = .progress a) ∧
    ((t.seq = .ready ∧ ∃ r, last = [.result r]) ∨ (t.seq ≠ .ready ∧ last = [] ∧ t.responses = []))

/-- R216, R218: every result among these outputs is an error, which carries no data of a chunk, or returns 64 bytes for
each chunk of `[start, end)`. -/
def WholeOrNothing (start endAddr : Word32) (out : List Output) : Prop :=
  ∀ r ∈ resultsOf out, (∃ e, r = .error e) ∨
    ∃ data, r = .okBytes data ∧ data.length = 64 * chunkCount start.toNat endAddr.toNat

/-- R92: the two ways in which a number is written, in decimal or with a `0x` prefix in hexadecimal. -/
def IsNumeral (n : Nat) (cs : List Char) : Prop :=
  cs = Nat.toDigits 10 n ∨ cs = '0' :: 'x' :: Nat.toDigits 16 n

/-- R92: a text between quotation marks, with a backslash before each quotation mark and backslash in it. -/
def quotedText (cs : List Char) : List Char :=
  quoteMark :: cs.flatMap (fun c => if c = quoteMark ∨ c = backslash then [backslash, c] else [c]) ++ [quoteMark]

/-- R92: a command name followed by its arguments, separated by commas. -/
def commandLine (name : String) (args : List (List Char)) : List Char :=
  match args with
  | [] => name.toList
  | args => name.toList ++ ' ' :: [',', ' '].intercalate args

end Sys2Proof.Machine
end

