-- ==== Sys2Proof/Certificates/Slice0/Obligations.lean ====
section
/-! DEFINITION. The statements for the provers, from the numbered rules of spec/. -/

open Sys2Proof Sys2Proof.Machine

/-! ### Encodings -/

/-- Decoding the encoded bytes of a well-formed instruction gives it back: for every ROM, every parameter setting, every
instruction and every operand value (R71, R73 to R75, R89 to R91, R111, R141). The bytes that no rule reads are written
0x00, the model's choice (log 23). -/
def Obligations.DecodeInvertsEncode : Prop :=
  ∀ (rom : Rom) (ps : Params) (i : Instr), i.wf rom ps = true → decode rom ps i.port (encode rom ps i) = i

/-- Encoding the command a word decodes to gives the word back: no two command words have one meaning (R89, R90). -/
def Obligations.EncodeInvertsCommandDecode : Prop :=
  ∀ (rom : Rom) (ps : Params) (w : List Byte), encode rom ps (decodeCommand w) = w

/-- Whatever bytes arrive on a port, the decoder answers a well-formed instruction of that port (R91, R95). -/
def Obligations.EveryDecodedInstructionIsWellFormed : Prop :=
  ∀ (rom : Rom) (ps : Params) (port : Port) (w : List Byte),
    (decode rom ps port w).wf rom ps = true ∧ (decode rom ps port w).port = port

/-- Words written out from the spec's encodings, one or two of each family, decode to the instructions they stand for
(O1, O7, S12 with TC; E5, E9, E15, E19, B2, E29 of `95_test_vectors.md`). -/
def Obligations.SpecWordsDecode : Prop :=
  decodeOuter tc [0x00, 0x12, 0x34, 0x06, 0x00] = .decEnterSbep 0x12 0x34 ∧
  decodeOuter tc [0xA1, 0x20, 0x00, 0xB1, 0x00] = .decKnob 0x20 0x00 ∧
  decodeSbep tc Params.defaults [0xC2, 0x09, 0x00, 0x00, 0x01] = .decSbIcon 0x09 0x01 ∧
  decodeCommand [0x04, 0x00, 0x00, 0x00, 0x05] = .setChannel 5 ∧
  decodeCommand [0x06, 0x00, 0x05, 0x48, 0x45, 0x4C, 0x4C, 0x4F] = .displayText 0x00 [0x48, 0x45, 0x4C, 0x4C, 0x4F] ∧
  decodeCommand [0x07, 0x01, 0x03, 0x52, 0x45, 0x44, 0x01] = .lampControl (.byName [0x52, 0x45, 0x44]) 0x01 ∧
  decodeCommand [0x09, 0x07, 0x00, 0x00, 0x12, 0x34] = .genericEvent 0x07 0x1234 ∧
  decodeCommand [0x0D, 0xD1, 0x00, 0x00, 0x00, 0x00, 0x00, 0x00, 0x00, 0x41, 0x01] = .readEeprom 0xD1 0 65 0x01 ∧
  decodeCommand [0x04, 0x00, 0x00] = .illegal [0x04, 0x00, 0x00]

/-- R120, which the spec derives from R71 and R111: a window of fewer than 4 bytes decodes as OUTER_OTHER and leaves the
mode at Idle; a window of 4 bytes decodes as it does with any reserved byte, and any further bytes, appended. -/
def Obligations.TruncatedAndPaddedOuterFrames : Prop :=
  (∀ (s : State) (w : List Byte) (rest : List Request), s.op = .operational → s.seq = .ready → s.mode = .idle →
    w.length < 4 → s.requests = .window w :: rest →
    windowInstr s w = .decOuterOther w[0]? w[1]? w[2]? none ∧
    step s = .next { s with
      requests := rest
      trace := s.trace ++ [.decoded [.log (.outerUnknown w[0]? w[1]? w[2]? none)]] }) ∧
  (∀ (rom : Rom) (w tail : List Byte), w.length = 4 → decodeOuter rom (w ++ tail) = decodeOuter rom w)

/-- R74, R75: the body length of every header length byte, and of an absent one; and the payload, the clipped slice
under either reading of its end. Under `relative` its length is the smaller of the body length and what the window holds
after its header. -/
def Obligations.BodyLengthAndPayload : Prop :=
  (∀ L : Byte, bodyLenOpt (some L) = (if L.toNat < 2 then L.toNat else L.toNat - 2) ∧ bodyLenOpt (some L) ≤ 253) ∧
  bodyLenOpt (some 0) = 0 ∧ bodyLenOpt (some 1) = 1 ∧ bodyLenOpt (some 2) = 0 ∧ bodyLenOpt none = 0 ∧
  ∀ (ps : Params) (w : List Byte),
    (ps.payloadEnd = .relative →
      payload ps w = (w.take (5 + bodyLenOpt w[2]?)).drop 5 ∧
      (payload ps w).length = min (bodyLenOpt w[2]?) (w.length - 5)) ∧
    (ps.payloadEnd = .absolute → payload ps w = (w.take (bodyLenOpt w[2]?)).drop 5)

/-- R53, R89: the 3-byte address and the 4-byte fields are big-endian. -/
def Obligations.MultiByteFieldsAreBigEndian : Prop :=
  (∀ a : Nat, a < 2 ^ 24 → ∃ b2 b1 b0 : Byte,
    addr3 a = [b2, b1, b0] ∧ a = b2.toNat * 65536 + b1.toNat * 256 + b0.toNat) ∧
  (∀ b3 b2 b1 b0 : Byte,
    (be32 b3 b2 b1 b0).toNat = b3.toNat * 16777216 + b2.toNat * 65536 + b1.toNat * 256 + b0.toNat)

/-- A line of the text syntax assembles only to a well-formed command, and the line of each of the thirteen commands
assembles to it, with every value of its fields, each number in decimal or hexadecimal (R92, R90). What R92 leaves open
is the model's choice, log 19: the one space after a comma, the lower-case hexadecimal digits, a name's further
characters, the at most 255 characters of a text or a name. -/
def Obligations.AssembledCommandIsWellFormed : Prop :=
  (∀ (rom : Rom) (ps : Params) (line : List Char) (i : Instr), assemble line = some i →
    i.wf rom ps = true ∧ i.port = .command ∧ ∀ w, i ≠ .illegal w) ∧
  assemble (commandLine "enter-scan-mode" []) = some .enterScan ∧
  assemble (commandLine "reset" []) = some .reset ∧
  (∀ (m : Byte) (n : List Char), IsNumeral m.toNat n →
    assemble (commandLine "enter-sub-protocol" [n]) = some (.enterSub m)) ∧
  (∀ (ch : Word32) (n : List Char), IsNumeral ch.toInt.natAbs n →
    (0 ≤ ch.toInt → assemble (commandLine "set-channel" [n]) = some (.setChannel ch)) ∧
    (ch.toInt < 0 → assemble (commandLine "set-channel" ['-' :: n]) = some (.setChannel ch))) ∧
  (∀ (x y : Byte) (m n : List Char), IsNumeral x.toNat m → IsNumeral y.toNat n →
    assemble (commandLine "send-button-event" [m, n]) = some (.sendButton x y) ∧
    assemble (commandLine "lamp-control" [m, n]) = some (.lampControl (.byId x) y) ∧
    assemble (commandLine "illumination-level" [m, n]) = some (.illumLevel x y)) ∧
  (∀ (text : List Char) (offset : Byte) (n : List Char), text.all isPrintable = true → text.length ≤ 255 →
    IsNumeral offset.toNat n →
    assemble (commandLine "display-text" [quotedText text, n]) = some (.displayText offset (charBytes text))) ∧
  (∀ (c : Char) (cs : List Char) (fn : Byte) (n : List Char), isLetter c = true → cs.all isIdentChar = true →
    (c :: cs).length ≤ 255 → IsNumeral fn.toNat n →
    assemble (commandLine "lamp-control" [c :: cs, n]) = some (.lampControl (.byName (charBytes (c :: cs))) fn)) ∧
  (∀ (id : Byte) (value : Word32) (m n : List Char), IsNumeral id.toNat m → IsNumeral value.toNat n →
    assemble (commandLine "generic-control-event" [m, n]) = some (.genericEvent id value)) ∧
  (∀ (flag : Byte) (n : List Char), flag = 0x00 ∨ flag = 0x01 → IsNumeral flag.toNat n →
    assemble (commandLine "audio-enable" [n]) = some (.audioEnable flag)) ∧
  (∀ (hz : Word32) (n : List Char), IsNumeral hz.toNat n →
    assemble (commandLine "set-rx-frequency" [n]) = some (.setRxFreq hz) ∧
    assemble (commandLine "set-tx-frequency" [n]) = some (.setTxFreq hz)) ∧
  (∀ (m : Byte) (start endAddr : Word32) (n a e : List Char), IsNumeral m.toNat n → IsNumeral start.toNat a →
    IsNumeral endAddr.toNat e →
    assemble (commandLine "read-eeprom-range" [n, a, e]) = some (.readEeprom m start endAddr 0x00) ∧
    assemble (commandLine "read-eeprom-range" [n, a, e, "progress".toList]) = some (.readEeprom m start endAddr 0x01))

/-! ### Values -/

/-- R82: only the trailing run of 0x00 bytes is removed. -/
def Obligations.TextDropsOnlyTrailingNuls : Prop :=
  ∀ p : List Byte, ∃ k : Nat, stripNul p = p.take k ∧ k ≤ p.length ∧ (∀ b ∈ p.drop k, b = 0x00) ∧
    (k = 0 ∨ ∃ b, p[k - 1]? = some b ∧ b ≠ 0x00)

/-- R83: the labels are the segments between '^' bytes, without the first; `n` separators give `n + 1` segments, and
empty segments are kept. -/
def Obligations.SoftkeysAreTheSegments : Prop :=
  ∀ t : List Byte, ∃ segs : List (List Byte), softkeys t = segs.drop 1 ∧ segs.length = t.count 0x5E + 1 ∧
    [(0x5E : Byte)].intercalate segs = t ∧ ∀ seg ∈ segs, (0x5E : Byte) ∉ seg

/-- R81: the icon state of every opcode byte, and the decimal text of a raw state. -/
def Obligations.IconStateOfEveryOpcode : Prop :=
  iconState 0x00 = .off ∧ iconState 0x01 = .on ∧ iconState 0x02 = .on ∧ iconState 0xFE = .blink ∧
  (∀ op : Byte, op ≠ 0x00 → op ≠ 0x01 → op ≠ 0x02 → op ≠ 0xFE → iconState op = .raw op) ∧
  (∀ n : Byte, rawText n = (Nat.toDigits 10 n.toNat).map fun c => BitVec.ofNat 8 c.toNat)

/-- R184: the step of a frequency is exact integer arithmetic: rounded to the nearest, ties to the even neighbour, less
60000, wrapped to 16 bits and split into its high and low byte. The tie rule and the wrap are the spec's own readings
(`93_implementation_defined.md` I7, I8; log 20). -/
def Obligations.FrequencyStepRounding : Prop :=
  ∀ hz : Word32,
    let q := hz.toNat / 6250
    let r := hz.toNat % 6250
    (2 * r < 6250 → freqStep hz.toNat = (q : Int) - 60000) ∧
    (6250 < 2 * r → freqStep hz.toNat = (q : Int) + 1 - 60000) ∧
    (2 * r = 6250 → q % 2 = 0 → freqStep hz.toNat = (q : Int) - 60000) ∧
    (2 * r = 6250 → q % 2 = 1 → freqStep hz.toNat = (q : Int) + 1 - 60000) ∧
    -60000 ≤ freqStep hz.toNat ∧ freqStep hz.toNat ≤ 627195 ∧
    ((freqHi hz.toNat).toNat * 256 + (freqLo hz.toNat).toNat : Int) = freqStep hz.toNat % 65536

/-! ### Outer decode classes -/

/-- R112: the enter-SBEP frame logs its two parameters and sets the mode to SbepPending; it is recognised first,
whatever the ROM, and never while the mode is SbepPending. -/
def Obligations.EnterSbepFrame : Prop :=
  (∀ (s : State) (p1 p2 : Byte), s.op = .operational →
    Emits (.decEnterSbep p1 p2) s .sbepPending [.log (.sbepEnter p1 p2)]) ∧
  (∀ (s : State) (p1 p2 : Byte) (tail : List Byte), s.mode = .idle →
    windowInstr s ([0x00, p1, p2, 0x06] ++ tail) = .decEnterSbep p1 p2) ∧
  (∀ (s : State) (w : List Byte) (p1 p2 : Byte), s.mode = .sbepPending → windowInstr s w ≠ .decEnterSbep p1 p2)

/-- R113: a button frame logs a press when param2 is 1 and a release otherwise, under its table name or its raw code. -/
def Obligations.ButtonFrame : Prop :=
  (∀ (s : State) (p1 p2 : Byte), s.op = .operational →
    let n : Name := match s.cfg.buttonTable.lookup p1 with
      | some e => .known e.name
      | none => .unknown p1
    (p2 = 0x01 → Emits (.decButton p1 p2) s s.mode [.log (.buttonPress n)]) ∧
    (p2 ≠ 0x01 → Emits (.decButton p1 p2) s s.mode [.log (.buttonRelease n p2)])) ∧
  (∀ (s : State) (p1 p2 : Byte) (tail : List Byte), s.mode = .idle → s.cfg.rowReachable 1 = true →
    (∀ e, s.cfg.buttonTable.lookup p1 = some e → e.kind = .button) →
    windowInstr s ([s.cfg.fpAddr, p1, p2, s.cfg.fnButton] ++ tail) = .decButton p1 p2)

/-- R114: a knob frame sets the volume if the knob is the volume knob, and always logs. -/
def Obligations.KnobFrame : Prop :=
  (∀ (s : State) (p1 p2 : Byte) (e : ButtonEntry), s.op = .operational → s.cfg.buttonTable.lookup p1 = some e →
    (e.volume = true →
      Emits (.decKnob p1 p2) s s.mode [.state (.setVolume p2), .log (.knob (.known e.name) p2)]) ∧
    (e.volume = false → Emits (.decKnob p1 p2) s s.mode [.log (.knob (.known e.name) p2)])) ∧
  (∀ (s : State) (p1 p2 : Byte) (tail : List Byte) (e : ButtonEntry), s.mode = .idle →
    s.cfg.rowReachable 1 = true → s.cfg.buttonTable.lookup p1 = some e → e.kind = .knob →
    windowInstr s ([s.cfg.fpAddr, p1, p2, s.cfg.fnButton] ++ tail) = .decKnob p1 p2)

/-- R115, R117, R118: a backlight, a channel-select and a channel-ack frame each log both parameters and do nothing
else. -/
def Obligations.LogOnlyFrames : Prop :=
  (∀ (s : State) (p1 p2 : Byte), s.op = .operational →
    Emits (.decBacklight p1 p2) s s.mode [.log (.backlight p1 p2)] ∧
    Emits (.decChanSelect p1 p2) s s.mode [.log (.chanSelect p1 p2)] ∧
    Emits (.decChanAck p1 p2) s s.mode [.log (.chanAck p1 p2)]) ∧
  (∀ (s : State) (p1 p2 : Byte) (tail : List Byte), s.mode = .idle →
    (s.cfg.rowReachable 2 = true →
      windowInstr s ([s.cfg.fpAddr, p1, p2, s.cfg.fnBacklight] ++ tail) = .decBacklight p1 p2) ∧
    (s.cfg.rowReachable 4 = true →
      windowInstr s ([s.cfg.radioAddr, p1, p2, s.cfg.fnChanSelect] ++ tail) = .decChanSelect p1 p2) ∧
    (s.cfg.rowReachable 5 = true →
      windowInstr s ([s.cfg.radioAddr, p1, p2, s.cfg.fnChanAck] ++ tail) = .decChanAck p1 p2))

/-- R116: an audio-mute frame unmutes on 1, mutes on 0 and logs any other value. -/
def Obligations.AudioMuteFrame : Prop :=
  (∀ (s : State) (p1 p2 : Byte), s.op = .operational →
    Emits (.decAudioMute p1 0x01) s s.mode [.state .unmute, .note .unmuted] ∧
    Emits (.decAudioMute p1 0x00) s s.mode [.state .mute, .note .muted] ∧
    (p2 ≠ 0x00 → p2 ≠ 0x01 → Emits (.decAudioMute p1 p2) s s.mode [.log (.audioOther p2)])) ∧
  (∀ (s : State) (p1 p2 : Byte) (tail : List Byte), s.mode = .idle → s.cfg.rowReachable 3 = true →
    windowInstr s ([s.cfg.radioAddr, p1, p2, s.cfg.fnAudioMute] ++ tail) = .decAudioMute p1 p2)

/-- R119: every other outer window logs its four fields, Present or Absent. -/
def Obligations.OuterFallback : Prop :=
  (∀ (s : State) (a p1 p2 f : Option Byte), s.op = .operational →
    Emits (.decOuterOther a p1 p2 f) s s.mode [.log (.outerUnknown a p1 p2 f)]) ∧
  (∀ (s : State) (w : List Byte), s.mode = .idle → w.length < 4 →
    windowInstr s w = .decOuterOther w[0]? w[1]? w[2]? none) ∧
  (∀ (s : State) (a p1 p2 f : Byte) (tail : List Byte), s.mode = .idle → (a, f) ∉ s.cfg.outerRows →
    windowInstr s ([a, p1, p2, f] ++ tail) = .decOuterOther (some a) (some p1) (some p2) (some f))

/-! ### SBEP decode classes -/

/-- R142: a display text goes to its sub-device's setter, if it has one, and always to a note; the mode returns to Idle.
-/
def Obligations.DisplayTextFrame : Prop :=
  (∀ (s : State) (sa : Byte) (p : List Byte) (e : SubdevEntry), s.op = .operational →
    s.cfg.subdevTable.lookup sa = some e →
    (e.role = .zone → Emits (.decSbText sa p) s .idle
      [.state (.setZoneText (stripNul p)), .note (.text (.known e.name) (stripNul p))]) ∧
    (e.role = .channel → Emits (.decSbText sa p) s .idle
      [.state (.setChannelText (stripNul p)), .note (.text (.known e.name) (stripNul p))]) ∧
    (e.role = .softkeys → Emits (.decSbText sa p) s .idle
      [.state (.setSoftkeys (softkeys (stripNul p))), .note (.text (.known e.name) (stripNul p))]) ∧
    (e.role = .other → Emits (.decSbText sa p) s .idle [.note (.text (.known e.name) (stripNul p))])) ∧
  (∀ (s : State) (sa : Byte) (p : List Byte), s.op = .operational → s.cfg.subdevTable.lookup sa = none →
    Emits (.decSbText sa p) s .idle [.note (.text (.unknown sa) (stripNul p))]) ∧
  (∀ (s : State) (sa : Byte) (tail : List Byte), s.mode = .sbepPending →
    windowInstr s (s.cfg.sbTextAddr :: sa :: tail) = .decSbText sa (payload s.params (s.cfg.sbTextAddr :: sa :: tail)))

/-- R143: a display icon is forwarded and noted, under its table name or its raw code; the mode returns to Idle. -/
def Obligations.DisplayIconFrame : Prop :=
  (∀ (s : State) (sa op : Byte), s.op = .operational →
    let n : Name := match s.cfg.iconTable.lookup sa with
      | some name => .known name
      | none => .unknown sa
    Emits (.decSbIcon sa op) s .idle [.state (.setIcon n (iconState op)), .note (.icon n (iconState op))]) ∧
  (∀ (s : State) (sa l pad op : Byte) (tail : List Byte), s.mode = .sbepPending →
    s.cfg.sbIconAddr ≠ s.cfg.sbTextAddr →
    windowInstr s ([s.cfg.sbIconAddr, sa, l, pad, op] ++ tail) = .decSbIcon sa op)

/-- R144: every other SBEP window is logged whole, with its header fields; the mode returns to Idle. -/
def Obligations.SbepFallback : Prop :=
  (∀ (s : State) (w : List Byte), s.op = .operational →
    Emits (.decSbOther w) s .idle [.log (.sbepUnknown w w[0]? w[1]? w[2]? w[4]?)]) ∧
  (∀ (s : State) (w : List Byte), s.mode = .sbepPending → w.length < 2 → windowInstr s w = .decSbOther w) ∧
  (∀ (s : State) (w : List Byte), s.mode = .sbepPending → w.length < 5 → w[0]? ≠ some s.cfg.sbTextAddr →
    windowInstr s w = .decSbOther w) ∧
  (∀ (s : State) (w : List Byte), s.mode = .sbepPending → w[0]? ≠ some s.cfg.sbTextAddr →
    w[0]? ≠ some s.cfg.sbIconAddr → windowInstr s w = .decSbOther w)

/-! ### Decode transactions -/

/-- R121, which the spec derives from R112 to R119: an outer decode never raises, writes the mode only in class
ENTER_SBEP, and emits one or two events. -/
def Obligations.OuterDecodeNeverRaises : Prop :=
  ∀ (s : State) (w : List Byte) (rest : List Request), s.op = .operational → s.seq = .ready → s.mode = .idle →
    s.requests = .window w :: rest →
    ∃ (es : List Event) (m : Mode),
      step s = .next { s with requests := rest, mode := m, trace := s.trace ++ [.decoded es] } ∧
      (es.length = 1 ∨ es.length = 2) ∧
      ((m = .sbepPending ∧ ∃ p1 p2, windowInstr s w = .decEnterSbep p1 p2) ∨
        (m = .idle ∧ ∀ p1 p2, windowInstr s w ≠ .decEnterSbep p1 p2))

/-- R140: a decode that starts in SbepPending never raises, emits at least one event and sets the mode back to Idle,
whatever the window. -/
def Obligations.SbepDecodeReturnsToIdle : Prop :=
  ∀ (s : State) (w : List Byte) (rest : List Request), s.op = .operational → s.seq = .ready →
    s.mode = .sbepPending → s.requests = .window w :: rest →
    ∃ es : List Event, es ≠ [] ∧
      step s = .next { s with requests := rest, mode := .idle, trace := s.trace ++ [.decoded es] }

/-- R146, which the spec derives from R112 and R140: the mode is SbepPending after a decode exactly when that decode was
an outer ENTER_SBEP; the next window is then decoded as SBEP; and a second enter-SBEP frame in a row is SB_OTHER, unless
the ROM gives an SBEP address the value 0. -/
def Obligations.ModeSequence : Prop :=
  (∀ (s t : State) (w : List Byte) (rest : List Request), s.op = .operational → s.seq = .ready →
    s.requests = .window w :: rest → step s = .next t →
    (t.mode = .sbepPending ↔ s.mode = .idle ∧ ∃ p1 p2, windowInstr s w = .decEnterSbep p1 p2) ∧
    (t.mode = .sbepPending → ∀ w', (windowInstr t w').port = .sbep)) ∧
  (∀ (s : State) (p1 p2 : Byte) (tail : List Byte), s.mode = .sbepPending → s.cfg.sbTextAddr ≠ 0x00 →
    s.cfg.sbIconAddr ≠ 0x00 →
    windowInstr s ([0x00, p1, p2, 0x06] ++ tail) = .decSbOther ([0x00, p1, p2, 0x06] ++ tail))

/-! ### Single-transfer commands -/

/-- R174: enter-scan-mode is code 0x01 and one frame, T_SCAN. A missing response leaves it waiting at its step: R21 and
R301 in the form of log 1. -/
def Obligations.EnterScanCommand : Prop :=
  (∀ s : State, commandInstr s [0x01] = .enterScan) ∧
  ∀ s : State, s.op = .operational → s.seq = .ready →
    RunsOnePrimitive .enterScan s
      (.sendOuter s.cfg.tScan.address s.cfg.tScan.param1 s.cfg.tScan.param2 s.cfg.tScan.function)

/-- R175: reset is code 0x02 and one frame, T_RESET; the block itself is not reset. A missing response leaves it waiting
at its step: R21 and R301 in the form of log 1. -/
def Obligations.ResetCommand : Prop :=
  (∀ s : State, commandInstr s [0x02] = .reset) ∧
  ∀ s : State, s.op = .operational → s.seq = .ready →
    RunsOnePrimitive .reset s
      (.sendOuter s.cfg.tReset.address s.cfg.tReset.param1 s.cfg.tReset.param2 s.cfg.tReset.function)

/-- R176: enter-sub-protocol is code 0x03; a known module code is entered, and no LeaveSub follows; an unknown one is
rejected before any primitive. A missing response leaves it waiting at its step: R21 and R301 in the form of log 1. -/
def Obligations.EnterSubCommand : Prop :=
  (∀ (s : State) (m : Byte), commandInstr s [0x03, m] = .enterSub m) ∧
  ∀ (s : State) (m : Byte), s.op = .operational → s.seq = .ready →
    ((∃ name, s.cfg.moduleTable.lookup name = some m) → RunsOnePrimitive (.enterSub m) s (.enterSub m)) ∧
    ((¬ ∃ name, s.cfg.moduleTable.lookup name = some m) → Rejects (.enterSub m) s (.moduleCode m))

/-- R177: set-channel is code 0x04; a channel from 0 to 254 sends the select frame with the channel in param2, then the
ack-request; any other is rejected before any primitive. A missing response leaves it waiting at its step: R21 and R301
in the form of log 1. -/
def Obligations.SetChannelCommand : Prop :=
  (∀ (s : State) (b3 b2 b1 b0 : Byte), commandInstr s [0x04, b3, b2, b1, b0] = .setChannel (be32 b3 b2 b1 b0)) ∧
  ∀ (s : State) (ch : Word32), s.op = .operational → s.seq = .ready →
    (0 ≤ ch.toInt → ch.toInt < 255 →
      RunsTwoPrimitives (.setChannel ch) s
        (.sendOuter s.cfg.tChanSelect.address s.cfg.tChanSelect.param1 (BitVec.ofInt 8 ch.toInt)
          s.cfg.tChanSelect.function)
        (.sendOuter s.cfg.tChanAck.address s.cfg.tChanAck.param1 s.cfg.tChanAck.param2 s.cfg.tChanAck.function)) ∧
    (¬ (0 ≤ ch.toInt ∧ ch.toInt < 255) → Rejects (.setChannel ch) s (.channel ch.toInt))

/-- R178: send-button-event is code 0x05 and one frame under the decoder's own button constants, so that the frame
decodes as the same button or knob event. A missing response leaves it waiting at its step: R21 and R301 in the form of
log 1. -/
def Obligations.SendButtonCommand : Prop :=
  (∀ (s : State) (code val : Byte), commandInstr s [0x05, code, val] = .sendButton code val) ∧
  (∀ (s : State) (code val : Byte), s.op = .operational → s.seq = .ready →
    RunsOnePrimitive (.sendButton code val) s (.sendOuter s.cfg.fpAddr code val s.cfg.fnButton)) ∧
  (∀ (s : State) (code val : Byte) (tail : List Byte), s.mode = .idle → s.cfg.rowReachable 1 = true →
    windowInstr s ([s.cfg.fpAddr, code, val, s.cfg.fnButton] ++ tail) = .decButton code val ∨
    windowInstr s ([s.cfg.fpAddr, code, val, s.cfg.fnButton] ++ tail) = .decKnob code val)

/-- R179: display-text is code 0x06; a text of at most 14 characters is sent in one bracket with its zero attribute
block, after the offset byte only under `display_offset_prefix`; a longer one is rejected before any primitive. A
missing response leaves it waiting at its step: R21 and R301 in the form of log 1. -/
def Obligations.DisplayTextCommand : Prop :=
  (∀ (s : State) (offset n : Byte) (text : List Byte), text.length = n.toNat → (∀ b ∈ text, b.toNat ≤ 0x7F) →
    commandInstr s ([0x06, offset, n] ++ text) = .displayText offset text) ∧
  ∀ (s : State) (offset : Byte) (text : List Byte), s.op = .operational → s.seq = .ready →
    (text.length ≤ 14 → s.params.offsetPrefix = false →
      RunsBracket (.displayText offset text) s s.cfg.textModule s.cfg.textOpcode
        (text ++ List.replicate text.length 0x00)) ∧
    (text.length ≤ 14 → s.params.offsetPrefix = true →
      RunsBracket (.displayText offset text) s s.cfg.textModule s.cfg.textOpcode
        ([offset] ++ text ++ List.replicate text.length 0x00)) ∧
    (14 < text.length → Rejects (.displayText offset text) s (.textLength text.length))

/-- R180: lamp-control is code 0x07; a numeric id is sent unchecked, a name is resolved by LAMP_TABLE, each in one
bracket with the 3-byte lamp payload; an unresolved name is rejected before any primitive. A missing response leaves it
waiting at its step: R21 and R301 in the form of log 1. -/
def Obligations.LampControlCommand : Prop :=
  (∀ (s : State) (id fn : Byte), commandInstr s [0x07, 0x00, id, fn] = .lampControl (.byId id) fn) ∧
  (∀ (s : State) (n fn : Byte) (name : Symbol), name.length = n.toNat →
    commandInstr s ([0x07, 0x01, n] ++ name ++ [fn]) = .lampControl (.byName name) fn) ∧
  ∀ (s : State) (id fn : Byte) (name : Symbol), s.op = .operational → s.seq = .ready →
    let body : List Byte := match s.params.lampOverrides.lookup (id, fn) with
      | some (x, y, z) => [x, y, z]
      | none => [id, fn, 0x00]
    RunsBracket (.lampControl (.byId id) fn) s s.cfg.lampModule s.cfg.lampOpcode body ∧
    (s.cfg.lampTable.lookup name = some id →
      RunsBracket (.lampControl (.byName name) fn) s s.cfg.lampModule s.cfg.lampOpcode body) ∧
    (s.cfg.lampTable.lookup name = none → Rejects (.lampControl (.byName name) fn) s (.lampName name))

/-- R181: illumination-level is code 0x08 and one frame with the id in param1 and the level in param2. A missing
response leaves it waiting at its step: R21 and R301 in the form of log 1. -/
def Obligations.IlluminationLevelCommand : Prop :=
  (∀ (s : State) (id level : Byte), commandInstr s [0x08, id, level] = .illumLevel id level) ∧
  ∀ (s : State) (id level : Byte), s.op = .operational → s.seq = .ready →
    RunsOnePrimitive (.illumLevel id level) s
      (.sendOuter s.cfg.tIllum.address id level s.cfg.tIllum.function)

/-- R182: generic-control-event is code 0x09 and one frame with the id in param1 and the value's low byte in param2. A
missing response leaves it waiting at its step: R21 and R301 in the form of log 1. -/
def Obligations.GenericEventCommand : Prop :=
  (∀ (s : State) (id b3 b2 b1 b0 : Byte),
    commandInstr s [0x09, id, b3, b2, b1, b0] = .genericEvent id (be32 b3 b2 b1 b0)) ∧
  ∀ (s : State) (id : Byte) (value : Word32), s.op = .operational → s.seq = .ready →
    RunsOnePrimitive (.genericEvent id value) s
      (.sendOuter s.cfg.tGeneric.address id (BitVec.ofNat 8 (value.toNat % 256)) s.cfg.tGeneric.function)

/-- R183: audio-enable is code 0x0A and one frame with 1 in param2 for any nonzero flag, else 0. A missing response
leaves it waiting at its step: R21 and R301 in the form of log 1. -/
def Obligations.AudioEnableCommand : Prop :=
  (∀ (s : State) (flag : Byte), commandInstr s [0x0A, flag] = .audioEnable flag) ∧
  ∀ (s : State) (flag : Byte), s.op = .operational → s.seq = .ready →
    RunsOnePrimitive (.audioEnable flag) s
      (.sendOuter s.cfg.tAudio.address s.cfg.tAudio.param1 (if flag ≠ 0x00 then 0x01 else 0x00) s.cfg.tAudio.function)

/-- R185, R186: set-rx-frequency is code 0x0B and set-tx-frequency code 0x0C; each is one frame of its own template with
the wrapped step's high byte in param1 and low byte in param2. The step's ties and wrap are the spec's own readings (I7,
I8; log 20). A missing response leaves it waiting at its step: R21 and R301 in the form of log 1. -/
def Obligations.SetFrequencyCommands : Prop :=
  (∀ (s : State) (b3 b2 b1 b0 : Byte), commandInstr s [0x0B, b3, b2, b1, b0] = .setRxFreq (be32 b3 b2 b1 b0) ∧
    commandInstr s [0x0C, b3, b2, b1, b0] = .setTxFreq (be32 b3 b2 b1 b0)) ∧
  ∀ (s : State) (hz : Word32), s.op = .operational → s.seq = .ready →
    ∃ hi lo : Byte, (hi.toNat * 256 + lo.toNat : Int) = freqStep hz.toNat % 65536 ∧
      RunsOnePrimitive (.setRxFreq hz) s (.sendOuter s.cfg.tRxFreq.address hi lo s.cfg.tRxFreq.function) ∧
      RunsOnePrimitive (.setTxFreq hz) s (.sendOuter s.cfg.tTxFreq.address hi lo s.cfg.tTxFreq.function)

/-- R91, R172: a word that matches no layout is the instruction ILLEGAL and raises IllegalCommand with its code byte, or
Absent for the empty word: no primitive, no state changed. -/
def Obligations.IllegalCommandWord : Prop :=
  (∀ (s : State) (w : List Byte), legalWord w = false → commandInstr s w = .illegal w) ∧
  ∀ (s : State) (w : List Byte), s.op = .operational → s.seq = .ready → Rejects (.illegal w) s (.illegalCommand w[0]?)

/-! ### The bulk read -/

/-- R210: read-eeprom is code 0x0D with an 11-byte word; the range is checked before the end, both before any primitive;
a good range starts at step 0 with the bulk-read registers loaded, whatever the module byte. That the registers are
already loaded while it waits at step 0 is the model's choice (log 14, DEDUCED: R212 loads them ahead of its loop and
R170 has the checks end before the first primitive), and that a missing response leaves it waiting there is R21 and R301
in the form of log 1. -/
def Obligations.BulkReadValidation : Prop :=
  (∀ (s : State) (m s3 s2 s1 s0 e3 e2 e1 e0 pr : Byte),
    commandInstr s [0x0D, m, s3, s2, s1, s0, e3, e2, e1, e0, pr] =
      .readEeprom m (be32 s3 s2 s1 s0) (be32 e3 e2 e1 e0) pr) ∧
  ∀ (s : State) (m : Byte) (start endAddr : Word32) (pr : Byte), s.op = .operational → s.seq = .ready →
    (endAddr.toNat ≤ start.toNat →
      Rejects (.readEeprom m start endAddr pr) s (.bulkRange start.toNat endAddr.toNat)) ∧
    (start.toNat < endAddr.toNat → 2 ^ 24 < endAddr.toNat →
      Rejects (.readEeprom m start endAddr pr) s (.bulkEnd endAddr.toNat)) ∧
    (start.toNat < endAddr.toNat → endAddr.toNat ≤ 2 ^ 24 → s.responses = [] →
      exec (.readEeprom m start endAddr pr) s = .next { s with
        seq := .step (.readEeprom m start endAddr pr) 0
        bulk := ⟨start.toNat, endAddr.toNat, m, [], decide (pr ≠ 0x00)⟩
        trace := s.trace ++ [.issued (frame s.cfg.tScan)] })

/-- R211: the preamble's five primitives, in order, lead to the first chunk request; Delay takes no response (R244). The
module argument goes in param2 of the module-select frame; the sub-protocol entered is the ROM's EE_MODULE. That Delay
takes no entry of the response list, so that four Ok answer five primitives, is the model's choice (log 3); that the
command then waits at step 5 with the first request of R212 and R78 issued is R301 in the form of log 1, and that its
registers are loaded is log 14. -/
def Obligations.BulkReadPreamble : Prop :=
  ∀ (s : State) (m : Byte) (start endAddr : Word32) (pr : Byte) (o0 o1 o2 o4 : Byte) (d0 d1 d2 d4 : List Byte),
    s.op = .operational → s.seq = .ready → start.toNat < endAddr.toNat → endAddr.toNat ≤ 2 ^ 24 →
    s.responses = [.ok o0 d0, .ok o1 d1, .ok o2 d2, .ok o4 d4] →
    exec (.readEeprom m start endAddr pr) s = .next { s with
      seq := .step (.readEeprom m start endAddr pr) 5
      bulk := ⟨start.toNat, endAddr.toNat, m, [], decide (pr ≠ 0x00)⟩
      responses := []
      trace := s.trace ++
        [.issued (.sendOuter s.cfg.tScan.address s.cfg.tScan.param1 s.cfg.tScan.param2 s.cfg.tScan.function),
         .issued .waitQuiet,
         .issued (.sendOuter s.cfg.tModsel.address s.cfg.tModsel.param1 m s.cfg.tModsel.function),
         .issued (.delay s.cfg.settleDelay),
         .issued (.enterSub s.cfg.eeModule),
         .issued (.sendSub s.cfg.eeReadOpcode (addr3 start.toNat))] }

/-- R213: the checks of a reply at step 6, in their order; the first failure raises, with its info, and a reply that
passes them all does not. -/
def Obligations.BulkReplyChecks : Prop :=
  ∀ (s : State) (m : Byte) (start endAddr : Word32) (pr opcode : Byte) (data : List Byte),
    s.seq = .step (.readEeprom m start endAddr pr) 6 →
    let t := respond (.ok opcode data) s
    let failed (e : CmdError) : Prop := t.seq = .ready ∧ t.trace = s.trace ++ [.result (.error e)]
    (opcode ≠ s.cfg.eeReplyOpcode → failed (.badOpcode s.bulk.cur opcode)) ∧
    (opcode = s.cfg.eeReplyOpcode → data.length < 3 ∨ data.take 3 ≠ addr3 s.bulk.cur →
      failed (.addressMismatch s.bulk.cur (data.take 3))) ∧
    (opcode = s.cfg.eeReplyOpcode → data.take 3 = addr3 s.bulk.cur → data.length - 3 ≠ 64 →
      failed (.lengthMismatch s.bulk.cur (data.length - 3))) ∧
    (opcode = s.cfg.eeReplyOpcode → data.take 3 = addr3 s.bulk.cur → data.length = 67 → t.seq ≠ .ready)

/-- R217: the sequencer table of READ_EEPROM, every row with its primitive: the command enters row 0; each Ok response
leads from its row to the next one; a good reply at row 6 appends its chunk to `acc`, moves `cur` on, reports progress
if asked for (R212, R214), and leads to row 5 or row 7 by `cur + 64`; row 7 returns the bytes. A failure at any row but
Delay's raises with that row; Delay, row 3, completes by itself and never fails (R244). That `cur` moves on after the
last chunk too is log 15 (DEDUCED from R212), and that Delay takes no response is log 3. -/
def Obligations.BulkSequencerTable : Prop :=
  (∀ (s : State) (m : Byte) (start endAddr : Word32) (pr : Byte),
    enterStep (.readEeprom m start endAddr pr) 0 s =
      { s with seq := .step (.readEeprom m start endAddr pr) 0, trace := s.trace ++ [.issued (frame s.cfg.tScan)] }) ∧
  ∀ (s : State) (m : Byte) (start endAddr : Word32) (pr : Byte) (k : Nat),
    s.seq = .step (.readEeprom m start endAddr pr) k →
    let cmd := Instr.readEeprom m start endAddr pr
    let goesTo (t : State) (j : Nat) (p : Prim) : Prop := t = { s with seq := .step cmd j, trace := s.trace ++ [.issued p] }
    (∀ (o : Byte) (d : List Byte),
      (k = 0 → goesTo (respond (.ok o d) s) 1 .waitQuiet) ∧
      (k = 1 → goesTo (respond (.ok o d) s) 2 (frameP2 s.cfg.tModsel s.bulk.modsel)) ∧
      (k = 2 → goesTo (respond (.ok o d) s) 3 (.delay s.cfg.settleDelay)) ∧
      (k = 4 → goesTo (respond (.ok o d) s) 5 (.sendSub s.cfg.eeReadOpcode (addr3 s.bulk.cur))) ∧
      (k = 5 → goesTo (respond (.ok o d) s) 6 .recvSub) ∧
      (k = 7 → (respond (.ok o d) s).seq = .ready ∧
        (respond (.ok o d) s).trace = s.trace ++ [.result (.okBytes s.bulk.acc)])) ∧
    (∀ chunk : List Byte, k = 6 → chunk.length = 64 →
      let t := respond (.ok s.cfg.eeReplyOpcode (addr3 s.bulk.cur ++ chunk)) s
      let moved : BulkRegs := { s.bulk with acc := s.bulk.acc ++ chunk, cur := s.bulk.cur + 64 }
      let shown : List Output := if s.bulk.progress then [.progress (BitVec.ofNat 24 s.bulk.cur)] else []
      (s.bulk.cur + 64 < s.bulk.endAddr →
        t = { s with
          seq := .step cmd 5
          bulk := moved
          trace := s.trace ++ shown ++ [.issued (.sendSub s.cfg.eeReadOpcode (addr3 (s.bulk.cur + 64)))] }) ∧
      (s.bulk.endAddr ≤ s.bulk.cur + 64 →
        t = { s with
          seq := .step cmd 7
          bulk := moved
          trace := s.trace ++ shown ++ [.issued .leaveSub] })) ∧
    (k = 3 → waitsForDelay s = true ∧ goesTo (passDelay s) 4 (.enterSub s.cfg.eeModule)) ∧
    (k ≠ 3 → waitsForDelay s = false ∧ passDelay s = s) ∧
    (∀ kind : FailKind, k ≤ 7 → k ≠ 3 →
      (respond (.fail kind) s).seq = .ready ∧
      (respond (.fail kind) s).trace = s.trace ++ [.result (.error (.transport kind k))])

/-- R212, R214, R215, R218: given a good reply for every chunk of `[start, end)`, a read-eeprom returns the
concatenation of the chunks, 64 bytes for each, after exactly 5 + 2C + 1 primitives, with a progress output after each
chunk if asked for. The preamble is R211's; its five primitives take four Ok, because Delay takes no entry of the
response list, the model's choice (log 3). -/
def Obligations.BulkReadReturnsEveryChunk : Prop :=
  ∀ (s : State) (m : Byte) (start endAddr : Word32) (pr : Byte) (chunks : List (List Byte)) (rest : List Response),
    s.op = .operational → s.seq = .ready → start.toNat < endAddr.toNat → endAddr.toNat ≤ 2 ^ 24 →
    chunks.length = chunkCount start.toNat endAddr.toNat → (∀ c ∈ chunks, c.length = 64) →
    s.responses = List.replicate 4 .done ++ chunkReplies s.cfg start.toNat chunks ++ [.done] ++ rest →
    ∃ (t : State) (out : List Output), exec (.readEeprom m start endAddr pr) s = .next t ∧
      out = preambleOut s.cfg m ++ chunkOut s.cfg (decide (pr ≠ 0x00)) start.toNat chunks ++
        [.issued .leaveSub, .result (.okBytes chunks.flatten)] ∧
      t.trace = s.trace ++ out ∧ t.seq = .ready ∧ t.responses = rest ∧
      t.op = s.op ∧ t.cfg = s.cfg ∧ t.params = s.params ∧ t.mode = s.mode ∧ t.requests = s.requests ∧
      (primsOf out).length = 5 + 2 * chunks.length + 1 ∧ chunks.flatten.length = 64 * chunks.length

/-- R216, R218: whatever the responses, each result that a read-eeprom reports is an error, with no data, or exactly 64
bytes for every chunk of its range; it never returns part of it. The first clause is of the step that starts the
command, the second of every later step that goes on with it, in a state that keeps the invariant `Legal`. -/
def Obligations.BulkResultIsWholeOrNothing : Prop :=
  (∀ (s t : State) (m : Byte) (start endAddr : Word32) (pr : Byte), s.seq = .ready →
    exec (.readEeprom m start endAddr pr) s = .next t →
    ∃ out : List Output, t.trace = s.trace ++ out ∧ WholeOrNothing start endAddr out) ∧
  (∀ (s t : State) (m : Byte) (start endAddr : Word32) (pr : Byte) (k : Nat), s.Legal → inProgress s = true →
    s.seq = .step (.readEeprom m start endAddr pr) k → step s = .next t →
    ∃ out : List Output, t.trace = s.trace ++ out ∧ WholeOrNothing start endAddr out)

/-- R218, which the spec derives from R210 and R212: there is at least one chunk, every chunk address is below `end`,
the chunks cover the range, and no chunk address is truncated by its three bytes. -/
def Obligations.ChunkArithmetic : Prop :=
  ∀ start endAddr : Nat, start < endAddr → endAddr ≤ 2 ^ 24 →
    1 ≤ chunkCount start endAddr ∧ endAddr ≤ start + 64 * chunkCount start endAddr ∧
    ∀ i, i < chunkCount start endAddr → start + 64 * i < endAddr ∧
      ∀ a, a < 2 ^ 24 → addr3 a = addr3 (start + 64 * i) → a = start + 64 * i

/-! ### Errors and transactions -/

/-- R263: raising an error makes `seq` Ready, reports the error and nothing else, and leaves every register but the
bulk-read registers as it was; those are given up by a read-eeprom only. -/
def Obligations.RaiseEndsTheTransaction : Prop :=
  ∀ (e : CmdError) (s : State),
    (raise e s).seq = .ready ∧ (raise e s).trace = s.trace ++ [.result (.error e)] ∧
    (raise e s).op = s.op ∧ (raise e s).cfg = s.cfg ∧ (raise e s).params = s.params ∧ (raise e s).mode = s.mode ∧
    (raise e s).requests = s.requests ∧ (raise e s).responses = s.responses ∧
    ((∀ m start endAddr pr k, s.seq ≠ .step (.readEeprom m start endAddr pr) k) → (raise e s).bulk = s.bulk)

/-- R263, and R265, which the spec derives from R170 and R213: a command outputs primitives and progress reports, and
then either one result, as its last output and with `seq` Ready, or nothing yet, while it waits for a response that is
not there (R301 in the form of log 1). The first clause is of the step that starts the command, the second of every
later step that goes on with it. -/
def Obligations.CommandReportsOnceAndLast : Prop :=
  (∀ (i : Instr) (s t : State), i.port = .command → exec i s = .next t →
    ∃ out : List Output, t.trace = s.trace ++ out ∧ ReportsOnceAndLast out t) ∧
  (∀ s t : State, inProgress s = true → step s = .next t →
    ∃ out : List Output, t.trace = s.trace ++ out ∧ ReportsOnceAndLast out t)

/-- R266: while `op` is not Operational no window and no command word has a step: the request is refused, and this is
the only ground on which one is. -/
def Obligations.RefusedUnlessOperational : Prop :=
  (∀ (i : Instr) (s : State), s.op ≠ .operational → exec i s = .refused .notOperational) ∧
  (∀ (i : Instr) (s : State) (r : Refusal), exec i s = .refused r → s.op ≠ .operational) ∧
  (∀ (s : State) (w : List Byte) (rest : List Request), s.op ≠ .operational →
    s.requests = .window w :: rest ∨ s.requests = .command w :: rest → step s = .refused .notOperational)

/-- R301, R244: a transaction in progress with no response is stuck, unless it waits for Delay, which completes; and
nothing else stops the machine with a fault. That the stuck machine answers a fault is the model's form of it (log 4).
-/
def Obligations.OnlyAMissingResponseIsStuck : Prop :=
  (∀ s : State, inProgress s = true → s.responses = [] → waitsForDelay s = false → step s = .fault .noResponse) ∧
  (∀ s : State, inProgress s = true → s.responses = [] → waitsForDelay s = true → step s = .next (passDelay s)) ∧
  (∀ (s : State) (f : Fault), step s = .fault f →
    inProgress s = true ∧ s.responses = [] ∧ waitsForDelay s = false) ∧
  (∀ (i : Instr) (s : State) (f : Fault), exec i s ≠ .fault f)

/-- R21, R59: what a step does with a transaction in progress. It runs the transaction on the waiting responses: an
outstanding Delay passes (R244), each response goes to the outstanding primitive in turn, and what an ended transaction
did not take stays. A transaction that runs out of responses loses nothing: running on two batches, one after the other,
is running on them together. The response list is the model's form of the transport (log 1, log 3). -/
def Obligations.WaitingTransactionGoesOn : Prop :=
  (∀ (s : State) (r : Response) (rs : List Response), inProgress s = true → s.responses = r :: rs →
    step s = .next (drain (r :: rs) s)) ∧
  (∀ (s : State) (rs : List Response), s.seq = .ready → drain rs s = { s with responses := rs }) ∧
  (∀ s : State, drain [] s = { s with responses := [] }) ∧
  (∀ (s : State) (r : Response) (rs : List Response), s.seq ≠ .ready →
    drain (r :: rs) s = drain rs (respond r (passDelay s))) ∧
  ∀ (rs qs : List Response) (s : State),
    drain (rs ++ qs) s =
      if (drain rs s).seq = .ready then { drain rs s with responses := (drain rs s).responses ++ qs }
      else drain qs (drain rs s)

/-- R170: a command never reads the mode: from two states that differ only in the mode it does the same, and each mode
is kept. -/
def Obligations.CommandsDoNotReadTheMode : Prop :=
  ∀ (i : Instr) (s t : State) (m : Mode), i.port = .command → exec i s = .next t →
    t.mode = s.mode ∧ exec i (s.setMode m) = .next (t.setMode m)

/-- R11: neither agent writes the other's state, and no transaction writes `op`, `cfg` or the parameters. -/
def Obligations.AgentsKeepApart : Prop :=
  ∀ (i : Instr) (s t : State), exec i s = .next t →
    t.op = s.op ∧ t.cfg = s.cfg ∧ t.params = s.params ∧ t.requests = s.requests ∧
    (i.port = .command → t.mode = s.mode) ∧
    (i.port ≠ .command → t.seq = s.seq ∧ t.bulk = s.bulk ∧ t.responses = s.responses ∧ t.draws = s.draws)

/-! ### Construction, reset, the step -/

/-- R290: construction loads the ROM; a mismatched variant reports ConfigError and leaves the block at ConfigFault; a
match makes it Operational, with mode Idle and `seq` Ready. -/
def Obligations.ConstructionGate : Prop :=
  ∀ (s : State) (rom : Rom) (v : Symbol) (rest : List Request), inProgress s = false →
    s.requests = .construct rom v :: rest →
    ∃ t, step s = .next t ∧ t.cfg = rom ∧ t.requests = rest ∧
      (v ≠ rom.variant → t.op = .configFault ∧ t.trace = s.trace ++ [.constructed (some (.variantMismatch v))]) ∧
      (v = rom.variant → t.op = .operational ∧ t.mode = .idle ∧ t.seq = .ready ∧
        t.trace = s.trace ++ [.constructed none])

/-- State.reset holds what a construction of the ROM that log 6 names leaves (R291): which ROM it is, is the model's
choice. -/
def Obligations.ResetIsAConstructedBlock : Prop :=
  ∀ s : State,
    State.reset.op = (construct tc tc.variant s).op ∧ State.reset.cfg = (construct tc tc.variant s).cfg ∧
    State.reset.mode = (construct tc tc.variant s).mode ∧ State.reset.seq = (construct tc tc.variant s).seq ∧
    State.reset.op = .operational ∧ State.reset.mode = .idle ∧ State.reset.seq = .ready

/-- With no transaction in progress, a step serves the oldest request: it runs the instruction its bytes decode to under
the state's ROM, parameters and mode, with the request taken; with no request it changes nothing (R11, R59, R76, R172,
R273). The request list is the model's form of the ports (log 2, log 5). -/
def Obligations.StepRunsTheDecodedInstruction : Prop :=
  ∀ (s : State) (rest : List Request), inProgress s = false →
    (∀ w, s.requests = .window w :: rest →
      step s = exec (decode s.cfg s.params s.mode.port w) { s with requests := rest }) ∧
    (∀ w, s.requests = .command w :: rest → step s = exec (decodeCommand w) { s with requests := rest }) ∧
    (s.requests = [] → step s = .next s)

/-- R33, R292: only a construction writes `cfg` or `op`; only a window or a construction writes the mode. -/
def Obligations.OnlyConstructionWritesTheConfiguration : Prop :=
  ∀ s t : State, step s = .next t → t.params = s.params ∧
    ((∃ rom v rest, inProgress s = false ∧ s.requests = .construct rom v :: rest) ∨
      (t.cfg = s.cfg ∧ t.op = s.op ∧
        (t.mode = s.mode ∨ ∃ w rest, inProgress s = false ∧ s.requests = .window w :: rest)))

/-- R11, R214, R267: a step only adds outputs, and leaves no transaction half-way while a response is there: the
transaction has ended, or it waits. That one step runs a transaction as far as its responses reach is the model's choice
(log 1). -/
def Obligations.StepOnlyAddsOutputsAndStopsWaiting : Prop :=
  ∀ s t : State, step s = .next t →
    (∃ out : List Output, t.trace = s.trace ++ out) ∧ (inProgress t = true → t.responses = [])

/-- Every step keeps the invariant: while the block is Operational, `seq` is Ready or a step of a command that has
passed its checks (R21), and in a read-eeprom the bulk-read registers are as R32, R212, R217 and R218 say. Two parts of
it are the model's choice: that the registers are already loaded at steps 0 to 4 (log 14), and that `cur` at step 7 has
moved on by one more chunk, beyond R32's bound, which is R212 as log 15 reads it. -/
def Obligations.StepKeepsSequencerLegal : Prop :=
  ∀ s t : State, s.Legal → step s = .next t → t.Legal

/-- The invariant holds at reset. -/
def Obligations.ResetIsLegal : Prop := State.reset.Legal

/-! ### The reference contract of the sinks, outside the block -/

/-- R248: after any sequence of notes the history holds the most recent 100 of them, oldest first. -/
def Obligations.NoteHistoryKeepsTheLatestHundred : Prop :=
  ∀ ns : List Note, ns.foldl addNote [] = ns.drop (ns.length - 100)

/-- R82, R246, worked example W1: a text padded with white space and then with NULs is stored without its padding: the
block strips the NULs and the setter trims the white space. Which bytes are white space is the model's choice (log 26).
-/
def Obligations.PaddedDisplayTextIsStoredTrimmed : Prop :=
  (∀ b : Byte, isSpace b = true ↔ b = 0x20 ∨ (0x09 ≤ b.toNat ∧ b.toNat ≤ 0x0D)) ∧
  ∀ (t ws : List Byte) (n : Nat), (∀ b, t.getLast? = some b → b ≠ 0x00 ∧ isSpace b = false) →
    (∀ b ∈ ws, isSpace b = true) →
    let padded := t ++ ws ++ List.replicate n 0x00
    stripNul padded = t ++ ws ∧ trimEnd (stripNul padded) = t ∧
    ∀ d : DisplayState,
      applySetter d (.setZoneText (stripNul padded)) = { d with zoneText := t } ∧
      applySetter d (.setChannelText (stripNul padded)) = { d with channelText := t }
end

