-- ==== Sys2Proof/Laws/Assembler.lean ====
section
/-! SUPPORT. For each function of the assembler, what it gives on a written number, name, text and line. -/

namespace Sys2Proof.Machine

/-! ### Numbers -/

/-- The digit written for a value is read back, and no digit is a letter `x`, a sign, a separator or a quotation mark. -/
theorem digitChar_spec : ∀ d < 16,
    digitValue d.digitChar = some d ∧ d.digitChar ≠ 'x' ∧ d.digitChar ≠ '-' ∧ d.digitChar ≠ ' ' ∧ d.digitChar ≠ ',' ∧
      d.digitChar ≠ quoteMark := by
  decide

theorem decimal_not_letter : ∀ d < 10, isLetter d.digitChar = false := by decide

/-- The digits of a number are digits. -/
theorem toDigits_digits {b : Nat} (hb : 1 < b) (n : Nat) : ∀ c ∈ Nat.toDigits b n, ∃ d < b, c = d.digitChar := by
  induction n using Nat.strongRecOn with
  | ind n ih =>
    intro c hc
    rw [Nat.toDigits_eq_if hb] at hc
    split at hc
    · exact ⟨n, ‹_›, by simpa using hc⟩
    · rcases List.mem_append.mp hc with h | h
      · exact ih (n / b) (Nat.div_lt_self (by omega) hb) c h
      · exact ⟨n % b, Nat.mod_lt _ (by omega), by simpa using h⟩

theorem digitsValue_append (b : Nat) (xs ys : List Char) :
    ∀ acc, digitsValue b (xs ++ ys) acc = (digitsValue b xs acc).bind (digitsValue b ys) := by
  induction xs with
  | nil => exact fun _ => rfl
  | cons x xs ih =>
    intro acc
    simp only [List.cons_append, digitsValue]
    split
    · split
      · exact ih _
      · rfl
    · rfl

theorem digitsValue_digit {b d : Nat} (hb : b ≤ 16) (hd : d < b) (acc : Nat) :
    digitsValue b [d.digitChar] acc = some (acc * b + d) := by
  simp [digitsValue, (digitChar_spec d (by omega)).1, hd]

/-- The digits of a number have its value. -/
theorem digitsValue_toDigits {b : Nat} (hb : 1 < b) (hb' : b ≤ 16) (n : Nat) :
    digitsValue b (Nat.toDigits b n) 0 = some n := by
  induction n using Nat.strongRecOn with
  | ind n ih =>
    rw [Nat.toDigits_eq_if hb]
    split
    · rw [digitsValue_digit hb' ‹_›]
      simp
    · rw [digitsValue_append, ih (n / b) (Nat.div_lt_self (by omega) hb), Option.bind_some,
        digitsValue_digit hb' (Nat.mod_lt _ (by omega)), Nat.div_add_mod']

/-- R92: a number written in decimal or hexadecimal is read back. -/
theorem natValue_of_numeral {n : Nat} {cs : List Char} (h : IsNumeral n cs) : natValue cs = some n := by
  rcases h with rfl | rfl
  · have hd := toDigits_digits (b := 10) (by omega) n
    have hv := digitsValue_toDigits (b := 10) (by omega) (by omega) n
    have hne : Nat.toDigits 10 n ≠ [] := Nat.toDigits_ne_nil
    generalize Nat.toDigits 10 n = cs at hd hv hne
    have hx : 'x' ∉ cs := by
      intro hm
      obtain ⟨d, hlt, he⟩ := hd _ hm
      exact (digitChar_spec d (by omega)).2.1 he.symm
    unfold natValue
    split
    · exact (hne rfl).elim
    · simp at hx
    · simp at hx
    · exact hv
  · have hne : Nat.toDigits 16 n ≠ [] := Nat.toDigits_ne_nil
    have hv := digitsValue_toDigits (b := 16) (by omega) (by omega) n
    generalize Nat.toDigits 16 n = cs at hv hne
    cases cs with
    | nil => exact (hne rfl).elim
    | cons c cs => simpa [natValue] using hv

/-- A word that the lexer reads whole: nothing in it ends it. -/
def Plain (cs : List Char) : Prop := cs ≠ [] ∧ ∀ c ∈ cs, c ≠ ' ' ∧ c ≠ ',' ∧ c ≠ quoteMark

/-- A written number begins with a decimal digit and is a plain word. -/
theorem numeral_spec {n : Nat} {cs : List Char} (h : IsNumeral n cs) :
    Plain cs ∧ ∃ d < 10, ∃ rest, cs = d.digitChar :: rest := by
  have hc : ∀ b, 1 < b → b ≤ 16 → ∀ c ∈ Nat.toDigits b n, c ≠ ' ' ∧ c ≠ ',' ∧ c ≠ quoteMark := by
    intro b h1 h2 c hm
    obtain ⟨d, hd, rfl⟩ := toDigits_digits h1 n c hm
    exact (digitChar_spec d (by omega)).2.2.2
  rcases h with rfl | rfl
  · refine ⟨⟨Nat.toDigits_ne_nil, hc 10 (by omega) (by omega)⟩, ?_⟩
    have hne : Nat.toDigits 10 n ≠ [] := Nat.toDigits_ne_nil
    have hd := toDigits_digits (b := 10) (by omega) n
    generalize Nat.toDigits 10 n = cs at hd hne
    cases cs with
    | nil => exact (hne rfl).elim
    | cons c cs =>
      obtain ⟨d, hlt, rfl⟩ := hd c (by simp)
      exact ⟨d, hlt, cs, rfl⟩
  · refine ⟨⟨by simp, ?_⟩, 0, by omega, _, rfl⟩
    intro c hm
    simp only [List.mem_cons] at hm
    rcases hm with rfl | rfl | hm
    · decide
    · decide
    · exact hc 16 (by omega) (by omega) c hm

/-! ### Pieces of a line -/

/-- Up to the end of the line or a comma, the lexer reads these characters as this piece. -/
def Reads (cs : List Char) (t : Tok) : Prop :=
  t ≠ .comma ∧ ∀ rest, rest = [] ∨ (∃ r, rest = ',' :: r) → lex (cs ++ rest) .gap = (lex rest .gap).map (t :: ·)

theorem lex_word {cs : List Char} (h : ∀ c ∈ cs, c ≠ ' ' ∧ c ≠ ',' ∧ c ≠ quoteMark) (rest : List Char) :
    ∀ acc, lex (cs ++ rest) (.word acc) = lex rest (.word (cs.reverse ++ acc)) := by
  induction cs with
  | nil => exact fun _ => rfl
  | cons c cs ih =>
    intro acc
    obtain ⟨h1, h2, h3⟩ := h c (by simp)
    rw [List.cons_append, lex, if_neg h1, if_neg h2, if_neg h3, ih fun x hx => h x (by simp [hx])]
    simp

theorem lex_plain {cs : List Char} (h : Plain cs) (rest : List Char) :
    lex (cs ++ rest) .gap = lex rest (.word cs.reverse) := by
  obtain ⟨hne, hc⟩ := h
  cases cs with
  | nil => exact (hne rfl).elim
  | cons c cs =>
    obtain ⟨h1, h2, h3⟩ := hc c (by simp)
    rw [List.cons_append, lex, if_neg h1, if_neg h2, if_neg h3, lex_word fun x hx => hc x (by simp [hx])]
    simp

theorem reads_plain {cs : List Char} (h : Plain cs) : Reads cs (.word cs) := by
  refine ⟨by simp, ?_⟩
  rintro rest (rfl | ⟨r, rfl⟩)
  · rw [lex_plain h]
    simp [lex]
  · rw [lex_plain h]
    simp [lex, show (',' : Char) ≠ ' ' by decide, Function.comp_def]

theorem lex_escaped_text {text : List Char} (h : text.all isPrintable = true) (rest : List Char) :
    ∀ acc, lex (text.flatMap (fun c => if c = quoteMark ∨ c = backslash then [backslash, c] else [c]) ++ rest)
      (.quoted acc) = lex rest (.quoted (text.reverse ++ acc)) := by
  have hbq : backslash ≠ quoteMark := by decide
  induction text with
  | nil => exact fun _ => rfl
  | cons c cs ih =>
    intro acc
    simp only [List.all_cons, Bool.and_eq_true] at h
    have step : ∀ rest, lex ((if c = quoteMark ∨ c = backslash then [backslash, c] else [c]) ++ rest) (.quoted acc) =
        lex rest (.quoted (c :: acc)) := by
      intro rest
      split
      · simp [lex, hbq, ‹c = quoteMark ∨ c = backslash›]
      · have hc : ¬ c = quoteMark ∧ ¬ c = backslash := by simpa using ‹¬ (c = quoteMark ∨ c = backslash)›
        simp [lex, hc.1, hc.2, h.1]
    rw [List.flatMap_cons, List.append_assoc, step, ih h.2]
    simp

/-- R92: a quoted text is read with its escapes undone. -/
theorem reads_quotedText {text : List Char} (h : text.all isPrintable = true) : Reads (quotedText text) (.text text) := by
  refine ⟨by simp, fun rest _ => ?_⟩
  rw [quotedText, List.cons_append, List.cons_append, lex, if_neg (by decide), if_neg (by decide), if_pos rfl,
    List.append_assoc, lex_escaped_text h, List.singleton_append, lex, if_pos rfl]
  simp

/-- A line's arguments are read as the pieces that each of them reads as. -/
theorem splitArgs_of_reads {args : List (List Char)} {toks : List Tok} (h : List.Forall₂ Reads args toks) :
    (lex ([',', ' '].intercalate args) .gap).bind splitArgs = some toks := by
  induction h with
  | nil => rfl
  | @cons a t args toks ha hs ih =>
    cases hs with
    | nil =>
      rw [List.intercalate_singleton, ← List.append_nil a, ha.2 [] (.inl rfl)]
      cases t
      · rfl
      · rfl
      · exact (ha.1 rfl).elim
    | @cons b u args toks hb hs =>
      rw [List.intercalate_cons_cons, List.append_assoc]
      generalize [',', ' '].intercalate (b :: args) = line at ih ⊢
      rw [ha.2 ([',', ' '] ++ line) (.inr ⟨' ' :: line, rfl⟩)]
      have hl : lex (',' :: ' ' :: line) .gap = (lex line .gap).map (Tok.comma :: ·) := by
        simp [lex, show (',' : Char) ≠ ' ' by decide]
      rw [List.cons_append, List.singleton_append, hl]
      cases hx : lex line .gap with
      | none => simp [hx] at ih
      | some ts =>
        rw [hx, Option.bind_some] at ih
        have hne : ts ≠ [] := by
          rintro rfl
          simp [splitArgs] at ih
        simp [splitArgs, ha.1, hne, ih]

/-- R92: a line of a command name and arguments assembles as its pieces do. -/
theorem assemble_commandLine {name : String} {args : List (List Char)} {toks : List Tok} (hn : Plain name.toList)
    (h : List.Forall₂ Reads args toks) : assemble (commandLine name args) = assembleArgs name.toList toks := by
  cases h with
  | nil =>
    rw [commandLine, assemble, ← List.append_nil name.toList, lex_plain hn]
    simp [lex, splitArgs]
  | @cons a t args toks ha hs =>
    have hx := splitArgs_of_reads (List.Forall₂.cons ha hs)
    rw [commandLine, assemble, lex_plain hn]
    · generalize [',', ' '].intercalate (a :: args) = line at hx
      rw [lex, if_pos rfl]
      cases hl : lex line .gap with
      | none => simp [hl] at hx
      | some ts =>
        rw [hl, Option.bind_some] at hx
        simp [hx]
    · simp

/-! ### Arguments -/

theorem reads_numeral {n : Nat} {cs : List Char} (h : IsNumeral n cs) : Reads cs (.word cs) :=
  reads_plain (numeral_spec h).1

theorem u8Arg_of_numeral {x : Byte} {cs : List Char} (h : IsNumeral x.toNat cs) : u8Arg (.word cs) = some x := by
  simp [u8Arg, natValue_of_numeral h, x.isLt]

theorem u32Arg_of_numeral {x : Word32} {cs : List Char} (h : IsNumeral x.toNat cs) : u32Arg (.word cs) = some x := by
  simp [u32Arg, natValue_of_numeral h, x.isLt]

/-- R92: a channel that is not negative. -/
theorem s32Arg_of_numeral {x : Word32} {cs : List Char} (h : IsNumeral x.toInt.natAbs cs) (hx : 0 ≤ x.toInt) :
    s32Arg (.word cs) = some x := by
  obtain ⟨-, d, hd, rest, rfl⟩ := numeral_spec h
  have hs : d.digitChar ≠ '-' := (digitChar_spec d (by omega)).2.2.1
  have hlt := x.isLt
  rw [BitVec.toInt_eq_toNat_cond] at hx h
  split at h
  · rename_i hc
    rw [if_pos hc] at hx
    have hn := natValue_of_numeral h
    simp only [Int.natAbs_natCast] at hn
    unfold s32Arg
    split
    · exact (hs (by simp_all)).elim
    · rename_i heq
      cases heq
      rw [hn]
      dsimp only
      rw [if_pos (by omega)]
      simp
    · rename_i heq
      simp at heq
  · rename_i hc
    rw [if_neg hc] at hx
    omega

/-- R92: a negative channel. -/
theorem s32Arg_of_negative {x : Word32} {cs : List Char} (h : IsNumeral x.toInt.natAbs cs) (hx : x.toInt < 0) :
    s32Arg (.word ('-' :: cs)) = some x := by
  have hn := natValue_of_numeral h
  have hb := BitVec.le_toInt x
  simp only [s32Arg, hn]
  rw [if_pos (by omega), show (-(x.toInt.natAbs : Int)) = x.toInt by omega, BitVec.ofInt_toInt]

theorem reads_negative {n : Nat} {cs : List Char} (h : IsNumeral n cs) : Reads ('-' :: cs) (.word ('-' :: cs)) := by
  refine reads_plain ⟨by simp, fun c hc => ?_⟩
  rcases List.mem_cons.mp hc with rfl | hc
  · decide
  · exact (numeral_spec h).1.2 c hc

theorem lampArg_of_numeral {x : Byte} {cs : List Char} (h : IsNumeral x.toNat cs) :
    lampArg (.word cs) = some (.byId x) := by
  have hu := u8Arg_of_numeral h
  obtain ⟨-, d, hd, rest, rfl⟩ := numeral_spec h
  simp [lampArg, decimal_not_letter d hd, hu]

/-- R92: a lamp's name. -/
theorem lampArg_of_name {c : Char} {cs : List Char} (hc : isLetter c = true) (hs : cs.all isIdentChar = true)
    (hl : (c :: cs).length ≤ 255) : lampArg (.word (c :: cs)) = some (.byName (charBytes (c :: cs))) := by
  simp only [List.length_cons] at hl
  simp only [lampArg, hc, hs, if_true, Bool.true_and]
  rw [if_pos (by simp; omega)]

theorem isIdentChar_plain {c : Char} (h : isIdentChar c = true) : c ≠ ' ' ∧ c ≠ ',' ∧ c ≠ quoteMark := by
  refine ⟨?_, ?_, ?_⟩ <;> (rintro rfl; revert h; decide)

theorem reads_name {c : Char} {cs : List Char} (hc : isLetter c = true) (hs : cs.all isIdentChar = true) :
    Reads (c :: cs) (.word (c :: cs)) := by
  refine reads_plain ⟨by simp, fun x hx => isIdentChar_plain ?_⟩
  rcases List.mem_cons.mp hx with rfl | hx
  · simp [isIdentChar, hc]
  · exact List.all_eq_true.mp hs x hx

end Sys2Proof.Machine
end

