-- ==== Sys2Proof/Laws/Decode.lean ====
section
/-! SUPPORT. For each shared function of the decoder and the encoder, what it gives. -/

namespace Sys2Proof

/-! ### Four-byte fields -/

@[simp] theorem bytes32_length (v : Word32) : (bytes32 v).length = 4 := rfl

/-- Putting the four bytes of a field together gives it back. -/
theorem be32_of_bytes (v : Word32) :
    be32 (v.extractLsb' 24 8) (v.extractLsb' 16 8) (v.extractLsb' 8 8) (v.extractLsb' 0 8) = v := by
  unfold be32
  ext i hi
  simp only [BitVec.getElem_append, BitVec.getElem_extractLsb']
  repeat' split
  all_goals (simp only [← BitVec.getLsbD_eq_getElem]; congr 1; omega)

theorem append_byte_high {m n : Nat} (x : BitVec m) (y : BitVec n) (k : Nat) (h : n ≤ k) :
    (x ++ y).extractLsb' k 8 = x.extractLsb' (k - n) 8 := by
  ext i hi
  simp only [BitVec.getElem_extractLsb', BitVec.getLsbD_append]
  rw [if_neg (by omega)]
  congr 1
  omega

theorem append_byte_low {m n : Nat} (x : BitVec m) (y : BitVec n) (k : Nat) (h : k + 8 ≤ n) :
    (x ++ y).extractLsb' k 8 = y.extractLsb' k 8 := by
  ext i hi
  simp only [BitVec.getElem_extractLsb', BitVec.getLsbD_append]
  rw [if_pos (by omega)]

/-- The four bytes of a field that is put together from four. -/
theorem bytes32_be32 (b3 b2 b1 b0 : Byte) : bytes32 (be32 b3 b2 b1 b0) = [b3, b2, b1, b0] := by
  unfold bytes32 be32
  rw [append_byte_high _ _ 24 (by omega), append_byte_high _ _ 16 (by omega), append_byte_high _ _ 8 (by omega),
    append_byte_low _ _ 0 (by omega), append_byte_high _ _ (24 - 8) (by omega), append_byte_high _ _ (16 - 8) (by omega),
    append_byte_low _ _ (8 - 8) (by omega), append_byte_high _ _ (24 - 8 - 8) (by omega),
    append_byte_low _ _ (16 - 8 - 8) (by omega)]
  simp

/-! ### SBEP lengths -/

/-- R74: the body length, in natural numbers. -/
theorem bodyLen_eq (L : Byte) : bodyLen L = if L.toNat < 2 then L.toNat else L.toNat - 2 := by
  have hc : (Config.lenAdjust : Int) = 2 := rfl
  unfold bodyLen
  dsimp only
  rw [hc]
  split <;> split <;> omega

/-- R74: a header length that the encoder writes announces the payload end it stands for. -/
theorem bodyLen_headerLength (ps : Params) (n : Nat) (h : n ≤ ps.maxPayload) :
    payloadStop ps (bodyLen (headerLength ps n)) = Config.sbepHdrLen + n := by
  rw [bodyLen_eq]
  cases hp : ps.payloadEnd <;>
    simp only [Params.maxPayload, headerLength, payloadStop, hp, Config.lenAdjust, Config.sbepHdrLen,
      BitVec.toNat_ofNat] at h ⊢ <;> split <;> omega

/-- R75: no payload is longer than a header length can announce. -/
theorem payload_length_le (ps : Params) (w : List Byte) : (payload ps w).length ≤ ps.maxPayload := by
  have hb : bodyLenOpt (opt w 2) ≤ 253 := by
    cases opt w 2 with
    | none => simp [bodyLenOpt]
    | some L =>
      have := L.isLt
      simp only [bodyLenOpt, bodyLen_eq]
      split <;> omega
  have hl : (payload ps w).length ≤ payloadStop ps (bodyLenOpt (opt w 2)) - Config.sbepHdrLen := by
    simp only [payload, slice, List.length_drop, List.length_take]
    omega
  refine le_trans hl ?_
  cases hp : ps.payloadEnd <;> simp only [payloadStop, Params.maxPayload, hp, Config.sbepHdrLen] <;> omega

/-! ### Outer classes -/

/-- R94: a reachable row's pair is no earlier row's pair. -/
theorem rowReachable_spec {rom : Rom} {n : Nat} {pair : Byte × Byte} (h : rom.rowReachable n = true)
    (hp : rom.outerRows[n]? = some pair) : pair ∉ rom.outerRows.take n := by
  simpa [Rom.rowReachable, hp] using h

/-- R119: a pair of no row is OUTER_OTHER. -/
theorem selectOuter_of_not_mem {rom : Rom} {a f : Byte} (h : (a, f) ∉ rom.outerRows) (p1 p2 : Byte) :
    selectOuter rom a p1 p2 f = .decOuterOther (some a) (some p1) (some p2) (some f) := by
  simp only [Rom.outerRows, List.mem_cons, Prod.mk.injEq, List.not_mem_nil, or_false, not_or] at h
  obtain ⟨h0, h1, h2, h3, h4, h5⟩ := h
  simp only [selectOuter, h0, h1, h2, h3, h4, h5, if_false]

end Sys2Proof
end

