-- ==== Sys2Proof/Laws/State.lean ====
section
/-! SUPPORT. One lemma per field per update of the state, each true by rfl. -/

namespace Sys2Proof.Machine

@[simp] theorem State.put_op (s : State) (o : Output) : (s.put o).op = s.op := rfl
@[simp] theorem State.put_cfg (s : State) (o : Output) : (s.put o).cfg = s.cfg := rfl
@[simp] theorem State.put_params (s : State) (o : Output) : (s.put o).params = s.params := rfl
@[simp] theorem State.put_mode (s : State) (o : Output) : (s.put o).mode = s.mode := rfl
@[simp] theorem State.put_seq (s : State) (o : Output) : (s.put o).seq = s.seq := rfl
@[simp] theorem State.put_bulk (s : State) (o : Output) : (s.put o).bulk = s.bulk := rfl
@[simp] theorem State.put_requests (s : State) (o : Output) : (s.put o).requests = s.requests := rfl
@[simp] theorem State.put_responses (s : State) (o : Output) : (s.put o).responses = s.responses := rfl
@[simp] theorem State.put_trace (s : State) (o : Output) : (s.put o).trace = s.trace ++ [o] := rfl
@[simp] theorem State.put_draws (s : State) (o : Output) : (s.put o).draws = s.draws := rfl

@[simp] theorem State.setMode_op (s : State) (m : Mode) : (s.setMode m).op = s.op := rfl
@[simp] theorem State.setMode_cfg (s : State) (m : Mode) : (s.setMode m).cfg = s.cfg := rfl
@[simp] theorem State.setMode_params (s : State) (m : Mode) : (s.setMode m).params = s.params := rfl
@[simp] theorem State.setMode_mode (s : State) (m : Mode) : (s.setMode m).mode = m := rfl
@[simp] theorem State.setMode_seq (s : State) (m : Mode) : (s.setMode m).seq = s.seq := rfl
@[simp] theorem State.setMode_bulk (s : State) (m : Mode) : (s.setMode m).bulk = s.bulk := rfl
@[simp] theorem State.setMode_requests (s : State) (m : Mode) : (s.setMode m).requests = s.requests := rfl
@[simp] theorem State.setMode_responses (s : State) (m : Mode) : (s.setMode m).responses = s.responses := rfl
@[simp] theorem State.setMode_trace (s : State) (m : Mode) : (s.setMode m).trace = s.trace := rfl
@[simp] theorem State.setMode_draws (s : State) (m : Mode) : (s.setMode m).draws = s.draws := rfl

@[simp] theorem State.setSeq_op (s : State) (q : Seq) : (s.setSeq q).op = s.op := rfl
@[simp] theorem State.setSeq_cfg (s : State) (q : Seq) : (s.setSeq q).cfg = s.cfg := rfl
@[simp] theorem State.setSeq_params (s : State) (q : Seq) : (s.setSeq q).params = s.params := rfl
@[simp] theorem State.setSeq_mode (s : State) (q : Seq) : (s.setSeq q).mode = s.mode := rfl
@[simp] theorem State.setSeq_seq (s : State) (q : Seq) : (s.setSeq q).seq = q := rfl
@[simp] theorem State.setSeq_bulk (s : State) (q : Seq) : (s.setSeq q).bulk = s.bulk := rfl
@[simp] theorem State.setSeq_requests (s : State) (q : Seq) : (s.setSeq q).requests = s.requests := rfl
@[simp] theorem State.setSeq_responses (s : State) (q : Seq) : (s.setSeq q).responses = s.responses := rfl
@[simp] theorem State.setSeq_trace (s : State) (q : Seq) : (s.setSeq q).trace = s.trace := rfl
@[simp] theorem State.setSeq_draws (s : State) (q : Seq) : (s.setSeq q).draws = s.draws := rfl

@[simp] theorem State.setBulk_op (s : State) (b : BulkRegs) : (s.setBulk b).op = s.op := rfl
@[simp] theorem State.setBulk_cfg (s : State) (b : BulkRegs) : (s.setBulk b).cfg = s.cfg := rfl
@[simp] theorem State.setBulk_params (s : State) (b : BulkRegs) : (s.setBulk b).params = s.params := rfl
@[simp] theorem State.setBulk_mode (s : State) (b : BulkRegs) : (s.setBulk b).mode = s.mode := rfl
@[simp] theorem State.setBulk_seq (s : State) (b : BulkRegs) : (s.setBulk b).seq = s.seq := rfl
@[simp] theorem State.setBulk_bulk (s : State) (b : BulkRegs) : (s.setBulk b).bulk = b := rfl
@[simp] theorem State.setBulk_requests (s : State) (b : BulkRegs) : (s.setBulk b).requests = s.requests := rfl
@[simp] theorem State.setBulk_responses (s : State) (b : BulkRegs) : (s.setBulk b).responses = s.responses := rfl
@[simp] theorem State.setBulk_trace (s : State) (b : BulkRegs) : (s.setBulk b).trace = s.trace := rfl
@[simp] theorem State.setBulk_draws (s : State) (b : BulkRegs) : (s.setBulk b).draws = s.draws := rfl

@[simp] theorem State.drawBulk_op (s : State) : (s.drawBulk).op = s.op := rfl
@[simp] theorem State.drawBulk_cfg (s : State) : (s.drawBulk).cfg = s.cfg := rfl
@[simp] theorem State.drawBulk_params (s : State) : (s.drawBulk).params = s.params := rfl
@[simp] theorem State.drawBulk_mode (s : State) : (s.drawBulk).mode = s.mode := rfl
@[simp] theorem State.drawBulk_seq (s : State) : (s.drawBulk).seq = s.seq := rfl
@[simp] theorem State.drawBulk_bulk (s : State) : (s.drawBulk).bulk = Config.freeBulk s.draws := rfl
@[simp] theorem State.drawBulk_requests (s : State) : (s.drawBulk).requests = s.requests := rfl
@[simp] theorem State.drawBulk_responses (s : State) : (s.drawBulk).responses = s.responses := rfl
@[simp] theorem State.drawBulk_trace (s : State) : (s.drawBulk).trace = s.trace := rfl
@[simp] theorem State.drawBulk_draws (s : State) : (s.drawBulk).draws = s.draws + 1 := rfl

end Sys2Proof.Machine
end

