-- ==== Sys2Proof/Laws/Ops.lean ====
section
/-! SUPPORT. For each shared operation one lemma that says all it can do. Callers cite these instead of unfolding. -/

namespace Sys2Proof.Machine

/-! ### The guard -/

theorem whenOperational_of_operational {s : State} (h : s.op = .operational) (run : State → State) :
    whenOperational s run = .next (run s) := by
  simp [whenOperational, h]

theorem whenOperational_of_not_operational {s : State} (h : s.op ≠ .operational) (run : State → State) :
    whenOperational s run = .refused .notOperational := by
  simp [whenOperational, h]

theorem whenOperational_eq_next {s t : State} {run : State → State} (h : whenOperational s run = .next t) :
    s.op = .operational ∧ t = run s := by
  unfold whenOperational at h
  split at h
  · exact ⟨‹_›, by cases h; rfl⟩
  · cases h

/-! ### Ending a transaction -/

/-- Outside a READ_EEPROM nothing is released. -/
theorem releaseBulk_of_ready {s : State} (h : s.seq = .ready) : releaseBulk s = s := by
  simp [releaseBulk, h]

/-- Releasing changes the bulk-read registers and the draw counter, if anything. -/
theorem releaseBulk_cases (s : State) : releaseBulk s = s ∨ releaseBulk s = s.drawBulk := by
  unfold releaseBulk
  split
  · exact .inr rfl
  · exact .inl rfl

/-- Fields that running a command transaction never writes (R33, R170). -/
def SameBlock (s t : State) : Prop :=
  t.op = s.op ∧ t.cfg = s.cfg ∧ t.params = s.params ∧ t.mode = s.mode ∧ t.requests = s.requests

theorem SameBlock.refl (s : State) : SameBlock s s := ⟨rfl, rfl, rfl, rfl, rfl⟩

theorem SameBlock.trans {s t u : State} (h : SameBlock s t) (k : SameBlock t u) : SameBlock s u := by
  obtain ⟨h1, h2, h3, h4, h5⟩ := h
  obtain ⟨k1, k2, k3, k4, k5⟩ := k
  exact ⟨k1.trans h1, k2.trans h2, k3.trans h3, k4.trans h4, k5.trans h5⟩

/-- The end of a transaction: `seq` is Ready and the result is the one new output. -/
theorem endTransaction_spec (r : CmdResult) (s : State) :
    SameBlock s (endTransaction r s) ∧ (endTransaction r s).seq = .ready ∧
      (endTransaction r s).trace = s.trace ++ [.result r] ∧ (endTransaction r s).responses = s.responses := by
  unfold endTransaction
  rcases releaseBulk_cases s with h | h <;> rw [h] <;> exact ⟨⟨rfl, rfl, rfl, rfl, rfl⟩, rfl, rfl, rfl⟩

/-- With `seq` Ready, ending a transaction only reports: a rejected command (R263). -/
theorem endTransaction_of_ready {s : State} (h : s.seq = .ready) (r : CmdResult) :
    endTransaction r s = s.put (.result r) := by
  unfold endTransaction
  rw [releaseBulk_of_ready h]
  cases s
  simp_all [State.setSeq, State.put]

/-! ### The sequencer -/

theorem enterStep_of_some {cmd : Instr} {k : Nat} {s : State} {p : Prim} (h : primOf s cmd k = some p) :
    enterStep cmd k s = (s.setSeq (.step cmd k)).put (.issued p) := by
  simp [enterStep, h]

theorem enterStep_of_none {cmd : Instr} {k : Nat} {s : State} (h : primOf s cmd k = none) :
    enterStep cmd k s = finish .ok s := by
  simp [enterStep, h]

/-- Entering a step adds one output: the primitive of a step that exists, or the result Ok. -/
theorem enterStep_spec (cmd : Instr) (k : Nat) (s : State) :
    SameBlock s (enterStep cmd k s) ∧ (enterStep cmd k s).responses = s.responses ∧
      ((∃ p, primOf s cmd k = some p ∧ (enterStep cmd k s).seq = .step cmd k ∧
          (enterStep cmd k s).trace = s.trace ++ [.issued p] ∧ (enterStep cmd k s).bulk = s.bulk) ∨
        (primOf s cmd k = none ∧ (enterStep cmd k s).seq = .ready ∧
          (enterStep cmd k s).trace = s.trace ++ [.result .ok])) := by
  cases h : primOf s cmd k with
  | some p =>
    rw [enterStep_of_some h]
    exact ⟨⟨rfl, rfl, rfl, rfl, rfl⟩, rfl, .inl ⟨p, rfl, rfl, rfl, rfl⟩⟩
  | none =>
    rw [enterStep_of_none h]
    obtain ⟨h1, h2, h3, h4⟩ := endTransaction_spec .ok s
    exact ⟨h1, h4, .inr ⟨rfl, h2, h3⟩⟩

/-- A good chunk moves `acc` and `cur` on and adds at most one progress output. -/
theorem acceptChunk_spec (data : List Byte) (s : State) :
    SameBlock s (acceptChunk data s) ∧ (acceptChunk data s).responses = s.responses ∧
      (acceptChunk data s).seq = s.seq ∧ (acceptChunk data s).draws = s.draws ∧
      (acceptChunk data s).bulk =
        { s.bulk with acc := s.bulk.acc ++ slice data 3 (3 + Config.chunk), cur := s.bulk.cur + Config.chunk } ∧
      (acceptChunk data s).trace =
        s.trace ++ (if s.bulk.progress then [.progress (BitVec.ofNat 24 s.bulk.cur)] else []) := by
  unfold acceptChunk
  cases s.bulk.progress <;> simp [SameBlock]

/-- The reply checks pass exactly on the well-formed reply of R79. -/
theorem checkReply_eq_none_iff (rom : Rom) (cur : Nat) (opcode : Byte) (data : List Byte) :
    checkReply rom cur opcode data = none ↔
      opcode = rom.eeReplyOpcode ∧ slice data 0 3 = addr3 cur ∧ data.length = 3 + Config.chunk := by
  unfold checkReply
  constructor
  · intro h
    split at h
    · cases h
    · split at h
      · cases h
      · split at h
        · cases h
        · refine ⟨by tauto, by tauto, ?_⟩
          omega
  · rintro ⟨h1, h2, h3⟩
    have h4 : ¬ data.length < 3 := by omega
    have h5 : data.length - 3 = Config.chunk := by omega
    simp [h1, h2, h4, h5]

/-- One response: the block's frame, and outputs are only added. -/
def Grows (s t : State) : Prop := SameBlock s t ∧ ∃ out, t.trace = s.trace ++ out

theorem Grows.refl (s : State) : Grows s s := ⟨SameBlock.refl s, [], by simp⟩

theorem Grows.trans {s t u : State} (h : Grows s t) (k : Grows t u) : Grows s u := by
  obtain ⟨h1, o1, h2⟩ := h
  obtain ⟨k1, o2, k2⟩ := k
  exact ⟨h1.trans k1, o1 ++ o2, by rw [k2, h2, List.append_assoc]⟩

theorem endTransaction_grows (r : CmdResult) (s : State) : Grows s (endTransaction r s) :=
  ⟨(endTransaction_spec r s).1, _, (endTransaction_spec r s).2.2.1⟩

theorem enterStep_grows (cmd : Instr) (k : Nat) (s : State) : Grows s (enterStep cmd k s) := by
  obtain ⟨h, -, ⟨p, -, -, ht, -⟩ | ⟨-, -, ht⟩⟩ := enterStep_spec cmd k s
  · exact ⟨h, _, ht⟩
  · exact ⟨h, _, ht⟩

theorem acceptChunk_grows (data : List Byte) (s : State) : Grows s (acceptChunk data s) := by
  obtain ⟨h, -, -, -, -, ht⟩ := acceptChunk_spec data s
  exact ⟨h, _, ht⟩

theorem receiveChunk_grows (cmd : Instr) (opcode : Byte) (data : List Byte) (s : State) :
    Grows s (receiveChunk cmd opcode data s) := by
  unfold receiveChunk
  split
  · exact endTransaction_grows _ s
  · dsimp only
    split
    · exact (acceptChunk_grows data s).trans (enterStep_grows _ _ _)
    · exact (acceptChunk_grows data s).trans (enterStep_grows _ _ _)

theorem advanceOk_grows (cmd : Instr) (k : Nat) (opcode : Byte) (data : List Byte) (s : State) :
    Grows s (advanceOk cmd k opcode data s) := by
  unfold advanceOk
  split
  · unfold advanceBulk
    split
    · exact receiveChunk_grows _ _ _ s
    · exact endTransaction_grows _ s
    · exact enterStep_grows _ _ s
  · exact enterStep_grows _ _ s

/-- One response to the outstanding primitive. -/
theorem respond_grows (r : Response) (s : State) : Grows s (respond r s) := by
  unfold respond
  split
  · exact Grows.refl s
  · split
    · exact advanceOk_grows _ _ _ _ s
    · exact endTransaction_grows _ s

theorem respond_of_ok {s : State} {cmd : Instr} {k : Nat} (h : s.seq = .step cmd k) (opcode : Byte) (data : List Byte) :
    respond (.ok opcode data) s = advanceOk cmd k opcode data s := by
  simp [respond, h]

theorem respond_of_fail {s : State} {cmd : Instr} {k : Nat} (h : s.seq = .step cmd k) (kind : FailKind) :
    respond (.fail kind) s = raise (.transport kind k) s := by
  simp [respond, h]

/-! ### The delay -/

/-- With no Delay outstanding nothing passes. -/
theorem passDelay_of_not_waiting {s : State} (h : waitsForDelay s = false) : passDelay s = s := by
  unfold passDelay
  split
  · rfl
  · rw [h]
    rfl

theorem passDelay_of_waiting {s : State} {cmd : Instr} {k : Nat} (hs : s.seq = .step cmd k)
    (h : isDelay (primOf s cmd k) = true) : passDelay s = advanceOk cmd k 0x00 [] s := by
  simp [passDelay, waitsForDelay, hs, h]

theorem passDelay_grows (s : State) : Grows s (passDelay s) := by
  unfold passDelay
  split
  · exact Grows.refl s
  · split
    · exact advanceOk_grows _ _ _ _ s
    · exact Grows.refl s

/-! ### Running on the responses -/

theorem drain_nil (s : State) : drain [] s = { s with responses := [] } := rfl

theorem drain_cons_of_ready {s : State} (h : s.seq = .ready) (r : Response) (rs : List Response) :
    drain (r :: rs) s = { s with responses := r :: rs } := by
  simp [drain, h]

theorem drain_of_ready {s : State} (h : s.seq = .ready) (rs : List Response) :
    drain rs s = { s with responses := rs } := by
  cases rs with
  | nil => rfl
  | cons r rs => exact drain_cons_of_ready h r rs

theorem drain_cons_of_step {s : State} {cmd : Instr} {k : Nat} (h : s.seq = .step cmd k) (r : Response)
    (rs : List Response) : drain (r :: rs) s = drain rs (respond r (passDelay s)) := by
  simp [drain, h]

/-- With a transport primitive outstanding, one response is taken. -/
theorem drain_cons_of_transport {s : State} {cmd : Instr} {k : Nat} (h : s.seq = .step cmd k)
    (hd : isDelay (primOf s cmd k) = false) (r : Response) (rs : List Response) :
    drain (r :: rs) s = drain rs (respond r s) := by
  rw [drain_cons_of_step h, passDelay_of_not_waiting (by simp [waitsForDelay, h, hd])]

/-- What is kept of every state that a response leads to is kept of the state a transaction stops in. -/
theorem drain_induction (P : State → Prop) (hr : ∀ r s, P s → P (respond r s)) (hd : ∀ s, P s → P (passDelay s))
    (hq : ∀ s rs, P s → P { s with responses := rs }) (rs : List Response) :
    ∀ s, P s → P (drain rs s) := by
  induction rs with
  | nil => exact fun s h => hq s [] h
  | cons r rs ih =>
    intro s h
    cases hs : s.seq with
    | ready =>
      rw [drain_cons_of_ready hs]
      exact hq s _ h
    | step cmd k =>
      rw [drain_cons_of_step hs]
      exact ih _ (hr r _ (hd s h))

/-- A transaction runs until it has ended or no response is left. -/
theorem drain_stops (rs : List Response) :
    ∀ s, (drain rs s).seq = .ready ∨ (drain rs s).responses = [] := by
  induction rs with
  | nil => exact fun s => .inr rfl
  | cons r rs ih =>
    intro s
    cases hs : s.seq with
    | ready =>
      rw [drain_cons_of_ready hs]
      exact .inl hs
    | step cmd k =>
      rw [drain_cons_of_step hs]
      exact ih _

/-- Running a transaction keeps the block's other registers and only adds outputs. -/
theorem drain_grows (rs : List Response) (s : State) : Grows s (drain rs s) := by
  refine drain_induction (fun t => Grows s t) (fun r t h => h.trans (respond_grows r t))
    (fun t h => h.trans (passDelay_grows t)) ?_ rs s (Grows.refl s)
  rintro t rs ⟨h, out, ht⟩
  exact ⟨⟨h.1, h.2.1, h.2.2.1, h.2.2.2.1, h.2.2.2.2⟩, out, ht⟩

theorem runCommand_grows (cmd : Instr) (s : State) : Grows s (runCommand cmd s) :=
  (enterStep_grows cmd 0 s).trans (drain_grows _ _)

/-! ### Construction -/

/-- R290: the two outcomes of a construction. -/
theorem construct_cases (rom : Rom) (v : Symbol) (s : State) :
    (v = rom.variant ∧ (construct rom v s).op = .operational ∧ (construct rom v s).cfg = rom ∧
        (construct rom v s).mode = .idle ∧ (construct rom v s).seq = .ready ∧
        (construct rom v s).trace = s.trace ++ [.constructed none]) ∨
      (v ≠ rom.variant ∧ (construct rom v s).op = .configFault ∧ (construct rom v s).cfg = rom ∧
        (construct rom v s).trace = s.trace ++ [.constructed (some (.variantMismatch v))]) := by
  unfold construct
  split
  · exact .inr ⟨‹_›, rfl, rfl, rfl⟩
  · exact .inl ⟨not_not.mp ‹_›, rfl, rfl, rfl, rfl, rfl⟩

theorem construct_keeps (rom : Rom) (v : Symbol) (s : State) :
    (construct rom v s).params = s.params ∧ (construct rom v s).requests = s.requests ∧
      (construct rom v s).responses = s.responses := by
  unfold construct
  split <;> exact ⟨rfl, rfl, rfl⟩

/-! ### The step -/

/-- Whether a transaction is in progress. -/
theorem inProgress_eq_true_iff (s : State) : inProgress s = true ↔ s.op = .operational ∧ s.seq ≠ .ready := by
  simp [inProgress]

theorem resume_cons {s : State} {r : Response} {rs : List Response} (h : s.responses = r :: rs) :
    resume s = .next (drain (r :: rs) s) := by
  simp [resume, h]

theorem resume_nil_of_delay {s : State} (h : s.responses = []) (hd : waitsForDelay s = true) :
    resume s = .next (passDelay s) := by
  simp [resume, h, hd]

theorem resume_nil_of_not_delay {s : State} (h : s.responses = []) (hd : waitsForDelay s = false) :
    resume s = .fault .noResponse := by
  simp [resume, h, hd]

/-- The two ways in which a transaction in progress goes on. -/
theorem resume_eq_next {s t : State} (h : resume s = .next t) :
    (∃ r rs, s.responses = r :: rs ∧ t = drain (r :: rs) s) ∨
      (s.responses = [] ∧ waitsForDelay s = true ∧ t = passDelay s) := by
  unfold resume at h
  split at h
  · split at h
    · exact .inr ⟨‹_›, ‹_›, (Host.Outcome.next.inj h).symm⟩
    · cases h
  · exact .inl ⟨_, _, ‹_›, (Host.Outcome.next.inj h).symm⟩

theorem step_inProgress {s : State} (h : inProgress s = true) : step s = resume s := by
  simp [step, h]

theorem step_window {s : State} {w : List Byte} {rest : List Request} (h : inProgress s = false)
    (hr : s.requests = .window w :: rest) : step s = exec (windowInstr s w) { s with requests := rest } := by
  simp [step, h, hr]

theorem step_command {s : State} {w : List Byte} {rest : List Request} (h : inProgress s = false)
    (hr : s.requests = .command w :: rest) : step s = exec (commandInstr s w) { s with requests := rest } := by
  simp [step, h, hr]

theorem step_construct {s : State} {rom : Rom} {v : Symbol} {rest : List Request} (h : inProgress s = false)
    (hr : s.requests = .construct rom v :: rest) : step s = .next (construct rom v { s with requests := rest }) := by
  simp [step, h, hr]

theorem step_idle {s : State} (h : inProgress s = false) (hr : s.requests = []) : step s = .next s := by
  simp [step, h, hr]

end Sys2Proof.Machine
end

