-- ==== Sys2Proof/Laws/Exec.lean ====
section
/-! SUPPORT. The shapes a meaning can have: every arm of `exec` is guarded by `op`, a command raises or runs its steps, and a
decode class emits events. -/

namespace Sys2Proof.Machine

/-- R266: every meaning is one state function under the operational guard. -/
theorem exec_guarded (i : Instr) : ∃ run, ∀ s, exec i s = whenOperational s run := by
  cases i <;> exact ⟨_, fun _ => rfl⟩

/-- R170: a command either raises, or has passed its checks and runs from step 0, a read-eeprom with its registers
loaded. -/
theorem exec_command_cases {i : Instr} {s t : State} (hi : i.port = .command) (h : exec i s = .next t) :
    (∃ e, t = raise e s) ∨ ((∀ m a b p, i ≠ .readEeprom m a b p) ∧
        (∀ k, (primOf s i k).isSome = true → stepLegal s i k) ∧ t = runCommand i s) ∨
      ∃ m a b p, i = .readEeprom m a b p ∧ t = runCommand i (loadBulk m a b p s) ∧ a.toNat < b.toNat ∧
        b.toNat ≤ Config.eeLimit := by
  cases i <;> simp only [Instr.port, reduceCtorEq] at hi
  all_goals
    simp only [exec, execEnterScan, execReset, execEnterSub, execSetChannel, execSendButton, execDisplayText,
      execLampControl, execIllumLevel, execGenericEvent, execAudioEnable, execSetRxFreq, execSetTxFreq,
      execReadEeprom, execIllegal] at h
    obtain ⟨-, rfl⟩ := whenOperational_eq_next h
    try dsimp only
  case lampControl l f =>
    cases l with
    | byId id => exact .inr (.inl ⟨by simp, fun _ h => ⟨h, by trivial⟩, rfl⟩)
    | byName n =>
      dsimp only
      split
      · exact .inr (.inl ⟨by simp, fun _ h => ⟨h, by trivial⟩, rfl⟩)
      · exact .inl ⟨_, rfl⟩
  case readEeprom m a b p =>
    split
    · exact .inl ⟨_, rfl⟩
    · split
      · exact .inl ⟨_, rfl⟩
      · exact .inr (.inr ⟨m, a, b, p, rfl, rfl, by omega, by omega⟩)
  case illegal => exact .inl ⟨_, rfl⟩
  all_goals first
    | exact .inr (.inl ⟨by simp, fun _ h => ⟨h, by trivial⟩, rfl⟩)
    | (split
       · exact .inr (.inl ⟨by simp, fun _ h => ⟨h, by trivial⟩, rfl⟩)
       · exact .inl ⟨_, rfl⟩)

/-- R110, R140: a decode class writes the mode, if anything, and emits one event list. -/
theorem exec_window_cases {i : Instr} {s t : State} (hi : i.port ≠ .command) (h : exec i s = .next t) :
    ∃ m es, t = { s with mode := m, trace := s.trace ++ [.decoded es] } := by
  cases i <;> simp only [Instr.port, ne_eq, not_true_eq_false] at hi
  all_goals
    simp only [exec, execDecEnterSbep, execDecButton, execDecKnob, execDecBacklight, execDecAudioMute,
      execDecChanSelect, execDecChanAck, execDecOuterOther, execDecSbText, execDecSbIcon, execDecSbOther] at h
    obtain ⟨-, rfl⟩ := whenOperational_eq_next h
    exact ⟨_, _, rfl⟩

end Sys2Proof.Machine
end

