-- ==== Sys2Proof/Laws/Frame.lean ====
section
/-! SUPPORT. The sequencer reads neither the mode nor the responses still to come: every operation of a command transaction
commutes with writing those two fields. -/

namespace Sys2Proof.Machine

/-- The state with another mode and other responses to come. -/
def State.overlay (s : State) (m : Mode) (q : List Response) : State := { s with mode := m, responses := q }

@[simp] theorem State.overlay_seq (s : State) (m : Mode) (q : List Response) : (s.overlay m q).seq = s.seq := rfl
@[simp] theorem State.overlay_bulk (s : State) (m : Mode) (q : List Response) : (s.overlay m q).bulk = s.bulk := rfl
@[simp] theorem State.overlay_cfg (s : State) (m : Mode) (q : List Response) : (s.overlay m q).cfg = s.cfg := rfl
@[simp] theorem State.overlay_responses (s : State) (m : Mode) (q : List Response) : (s.overlay m q).responses = q := rfl

theorem endTransaction_overlay (r : CmdResult) (s : State) (m : Mode) (q : List Response) :
    endTransaction r (s.overlay m q) = (endTransaction r s).overlay m q := by
  unfold endTransaction releaseBulk
  rcases hs : s.seq with _ | ⟨c, k⟩
  · simp [hs, State.overlay, State.put, State.setSeq]
  · cases c <;> simp [hs, State.overlay, State.put, State.setSeq, State.drawBulk]

theorem primOf_overlay (s : State) (m : Mode) (q : List Response) (c : Instr) (k : Nat) :
    primOf (s.overlay m q) c k = primOf s c k := by
  cases c <;> rfl

theorem enterStep_overlay (c : Instr) (k : Nat) (s : State) (m : Mode) (q : List Response) :
    enterStep c k (s.overlay m q) = (enterStep c k s).overlay m q := by
  unfold enterStep
  rw [primOf_overlay]
  split
  · rfl
  · exact endTransaction_overlay _ _ _ _

theorem acceptChunk_overlay (d : List Byte) (s : State) (m : Mode) (q : List Response) :
    acceptChunk d (s.overlay m q) = (acceptChunk d s).overlay m q := by
  unfold acceptChunk
  by_cases h : s.bulk.progress = true <;> simp [h, State.overlay, State.setBulk, State.put]

theorem receiveChunk_overlay (c : Instr) (o : Byte) (d : List Byte) (s : State) (m : Mode) (q : List Response) :
    receiveChunk c o d (s.overlay m q) = (receiveChunk c o d s).overlay m q := by
  unfold receiveChunk
  rw [acceptChunk_overlay]
  simp only [State.overlay_cfg, State.overlay_bulk]
  split
  · exact endTransaction_overlay _ _ _ _
  · simp only [enterStep_overlay, ← apply_ite (State.overlay · m q)]

theorem advanceOk_overlay (c : Instr) (k : Nat) (o : Byte) (d : List Byte) (s : State) (m : Mode) (q : List Response) :
    advanceOk c k o d (s.overlay m q) = (advanceOk c k o d s).overlay m q := by
  unfold advanceOk
  split
  · unfold advanceBulk
    split
    · exact receiveChunk_overlay _ _ _ _ _ _
    · exact endTransaction_overlay _ _ _ _
    · exact enterStep_overlay _ _ _ _ _
  · exact enterStep_overlay _ _ _ _ _

/-- A response does the same whatever the mode and whatever responses come after it. -/
theorem respond_overlay (r : Response) (s : State) (m : Mode) (q : List Response) :
    respond r (s.overlay m q) = (respond r s).overlay m q := by
  unfold respond
  simp only [State.overlay_seq]
  split
  · rfl
  · split
    · exact advanceOk_overlay _ _ _ _ _ _ _
    · exact endTransaction_overlay _ _ _ _

theorem waitsForDelay_overlay (s : State) (m : Mode) (q : List Response) :
    waitsForDelay (s.overlay m q) = waitsForDelay s := by
  unfold waitsForDelay
  simp only [State.overlay_seq, primOf_overlay]

/-- The same of a Delay that completes. -/
theorem passDelay_overlay (s : State) (m : Mode) (q : List Response) :
    passDelay (s.overlay m q) = (passDelay s).overlay m q := by
  unfold passDelay
  rw [waitsForDelay_overlay]
  simp only [State.overlay_seq]
  split
  · rfl
  · split
    · exact advanceOk_overlay _ _ _ _ _ _ _
    · rfl

end Sys2Proof.Machine
end

