-- ==== Sys2Proof/Laws/PerInstr.lean ====
section
/-! SUPPORT. One property of every instruction's encoding, one lemma per constructor: the length its format has (R70, R72,
R90). -/

namespace Sys2Proof.Laws.EncodedLength

/-- The encoded bytes of a well-formed instruction: at most the 5 bytes of an outer frame; a whole header and at most
the longest payload for an SBEP class with fields; the length that its leading bytes select for a command; and no legal
word for ILLEGAL. DEC_SB_OTHER is any window. -/
def Statement (i : Instr) : Prop :=
  ∀ (rom : Rom) (ps : Params), i.wf rom ps = true →
    match i with
    | .decSbOther w => encode rom ps (.decSbOther w) = w
    | .illegal w => legalWord (encode rom ps (.illegal w)) = false
    | i =>
      match i.port with
      | .outer => (encode rom ps i).length ≤ 5
      | .sbep => 5 ≤ (encode rom ps i).length ∧ (encode rom ps i).length ≤ 5 + ps.maxPayload
      | .command => wordLength (encode rom ps i) = some (encode rom ps i).length

theorem decEnterSbep (p1 p2 : Byte) : Statement (.decEnterSbep p1 p2) := fun _ _ _ => le_refl 5
theorem decButton (p1 p2 : Byte) : Statement (.decButton p1 p2) := fun _ _ _ => le_refl 5
theorem decKnob (p1 p2 : Byte) : Statement (.decKnob p1 p2) := fun _ _ _ => le_refl 5
theorem decBacklight (p1 p2 : Byte) : Statement (.decBacklight p1 p2) := fun _ _ _ => le_refl 5
theorem decAudioMute (p1 p2 : Byte) : Statement (.decAudioMute p1 p2) := fun _ _ _ => le_refl 5
theorem decChanSelect (p1 p2 : Byte) : Statement (.decChanSelect p1 p2) := fun _ _ _ => le_refl 5
theorem decChanAck (p1 p2 : Byte) : Statement (.decChanAck p1 p2) := fun _ _ _ => le_refl 5

theorem decOuterOther (a p1 p2 f : Option Byte) : Statement (.decOuterOther a p1 p2 f) := by
  intro rom ps _
  show (optionalFrame a p1 p2 f).length ≤ 5
  unfold optionalFrame
  split <;> simp [outerFrame]

theorem decSbText (sa : Byte) (payload : List Byte) : Statement (.decSbText sa payload) := by
  intro rom ps h
  have h : payload.length ≤ ps.maxPayload := by simpa [Instr.wf] using h
  show 5 ≤ (encode rom ps (.decSbText sa payload)).length ∧ _
  simp only [encode, List.length_append, List.length_cons, List.length_nil]
  omega

theorem decSbIcon (sa op : Byte) : Statement (.decSbIcon sa op) := fun _ _ _ => ⟨le_refl 5, Nat.le_add_right 5 _⟩
theorem decSbOther (w : List Byte) : Statement (.decSbOther w) := fun _ _ _ => rfl
theorem enterScan : Statement .enterScan := fun _ _ _ => rfl
theorem reset : Statement .reset := fun _ _ _ => rfl
theorem enterSub (m : Byte) : Statement (.enterSub m) := fun _ _ _ => rfl
theorem setChannel (ch : Word32) : Statement (.setChannel ch) := fun _ _ _ => rfl
theorem sendButton (code val : Byte) : Statement (.sendButton code val) := fun _ _ _ => rfl

theorem displayText (offset : Byte) (text : List Byte) : Statement (.displayText offset text) := by
  intro rom ps h
  have h : text.length ≤ 255 := by simp [Instr.wf] at h; exact h.1
  show wordLength (encode rom ps (.displayText offset text)) = _
  simp [encode, wordLength]
  omega

theorem lampControl (lamp : Lamp) (fn : Byte) : Statement (.lampControl lamp fn) := by
  intro rom ps h
  cases lamp with
  | byId id => rfl
  | byName name =>
    have h : name.length ≤ 255 := by simpa [Instr.wf] using h
    show wordLength (encode rom ps (.lampControl (.byName name) fn)) = _
    simp [encode, wordLength]
    omega

theorem illumLevel (id level : Byte) : Statement (.illumLevel id level) := fun _ _ _ => rfl
theorem genericEvent (id : Byte) (value : Word32) : Statement (.genericEvent id value) := fun _ _ _ => rfl
theorem audioEnable (flag : Byte) : Statement (.audioEnable flag) := fun _ _ _ => rfl
theorem setRxFreq (hz : Word32) : Statement (.setRxFreq hz) := fun _ _ _ => rfl
theorem setTxFreq (hz : Word32) : Statement (.setTxFreq hz) := fun _ _ _ => rfl

theorem readEeprom (m : Byte) (start endAddr : Word32) (progress : Byte) :
    Statement (.readEeprom m start endAddr progress) := fun _ _ _ => rfl

theorem illegal (w : List Byte) : Statement (.illegal w) := by
  intro rom ps h
  simpa [Instr.wf, encode] using h

end Sys2Proof.Laws.EncodedLength
end

