-- ==== Sys2Proof/Tests/Slice0.lean ====
section
/-! SUPPORT. Own tests: well-formedness, decoding of words written out from the spec's encodings, one step on small states,
the text syntax, and for every statement with hypotheses a concrete case that meets them. Expected results come from
spec/95_test_vectors.md ("O1" and the like name its vectors) or from the rules named. -/

namespace Sys2Proof.Tests

open Sys2Proof Sys2Proof.Machine

/-! ### Helpers -/

/-- After reset, a command word waits, with these responses to come. -/
def cmdState (w : List Byte) (rs : List Response) : State :=
  { State.reset with requests := [.command w], responses := rs }

/-- After reset, in this mode, a window waits. -/
def winState (m : Mode) (w : List Byte) : State := { State.reset with mode := m, requests := [.window w] }

/-- What one step outputs. -/
def outputsOf (s : State) : Option (List Output) :=
  match step s with
  | .next t => some t.trace
  | _ => none

/-- The mode after one step, and what it outputs. -/
def decodedOf (m : Mode) (w : List Byte) : Option (Mode × List Output) :=
  match step (winState m w) with
  | .next t => some (t.mode, t.trace)
  | _ => none

/-- The mode and the events of a decode step. -/
def emits (m : Mode) (es : List Event) : Option (Mode × List Output) := some (m, [.decoded es])

/-- `addr3(a) ++ X(a)`, the data of a good reply (section 3.5). -/
def goodChunk (a : Nat) : List Byte := (List.range 64).map fun i => BitVec.ofNat 8 (a + i)

/-- A good reply under TC. -/
def goodReply (a : Nat) : Response := .ok 0xF4 (addr3 a ++ goodChunk a)

/-- The preamble under TC (section 3.5). -/
def pre (module : Byte) : List Output :=
  [.issued (.sendOuter 0xA2 0x00 0x00 0xE1), .issued .waitQuiet, .issued (.sendOuter 0x00 0x00 module 0xE6),
   .issued (.delay 1), .issued (.enterSub 0xD1)]

/-- `n` responses Ok. -/
def oks (n : Nat) : List Response := List.replicate n .done

/-! ### Well-formedness: each check refuses an ill-formed term -/

def wfTc (i : Instr) : Bool := i.wf tc Params.defaults

/-- A ROM whose button row is the enter-SBEP row. -/
def romShadow1 : Rom := { tc with fpAddr := 0x00, fnButton := 0x06 }

/-- A ROM whose backlight row is the button row. -/
def romShadow2 : Rom := { tc with fnBacklight := 0xB1 }

/-- A ROM whose radio rows all have one pair. -/
def romShadow3 : Rom := { tc with fnAudioMute := 0xB3, fnChanSelect := 0xB3, fnChanAck := 0xB3 }

/-- A ROM whose audio-mute row is the enter-SBEP row. -/
def romShadow4 : Rom := { tc with radioAddr := 0x00, fnAudioMute := 0x06 }

/-- A ROM with one SBEP address for both classes. -/
def romOneSbep : Rom := { tc with sbIconAddr := 0xC1 }

theorem test_wf_button_of_knob_code : wfTc (.decButton 0x20 0x01) = false := by decide
theorem test_wf_button_shadowed : (Instr.decButton 0x10 0x01).wf romShadow1 Params.defaults = false := by decide
theorem test_wf_knob_of_button_code : wfTc (.decKnob 0x10 0x01) = false := by decide
theorem test_wf_knob_shadowed : (Instr.decKnob 0x20 0x01).wf romShadow1 Params.defaults = false := by decide
theorem test_wf_backlight_shadowed : (Instr.decBacklight 0x01 0x05).wf romShadow2 Params.defaults = false := by decide
theorem test_wf_mute_shadowed : (Instr.decAudioMute 0x00 0x00).wf romShadow4 Params.defaults = false := by decide
theorem test_wf_select_shadowed : (Instr.decChanSelect 0x00 0x00).wf romShadow3 Params.defaults = false := by decide
theorem test_wf_ack_shadowed : (Instr.decChanAck 0x00 0x00).wf romShadow3 Params.defaults = false := by decide
theorem test_wf_other_gap : wfTc (.decOuterOther none (some 0x01) none none) = false := by decide
theorem test_wf_other_gap2 : wfTc (.decOuterOther (some 0xA1) none (some 0x01) none) = false := by decide
theorem test_wf_other_gap3 : wfTc (.decOuterOther (some 0xA1) (some 0x10) none (some 0xB1)) = false := by decide
theorem test_wf_other_of_row :
    wfTc (.decOuterOther (some 0xA1) (some 0x10) (some 0x01) (some 0xB1)) = false := by decide
theorem test_wf_text_too_long : wfTc (.decSbText 0x00 (List.replicate 254 0x41)) = false := by decide +kernel
theorem test_wf_text_too_long_absolute :
    (Instr.decSbText 0x00 (List.replicate 249 0x41)).wf tc { Params.defaults with payloadEnd := .absolute } = false := by
  decide +kernel
theorem test_wf_icon_hidden : (Instr.decSbIcon 0x01 0x01).wf romOneSbep Params.defaults = false := by decide
theorem test_wf_other_of_text : wfTc (.decSbOther [0xC1, 0x00]) = false := by decide
theorem test_wf_other_of_icon : wfTc (.decSbOther [0xC2, 0x01, 0x00, 0x00, 0x01]) = false := by decide
theorem test_wf_display_not_ascii : wfTc (.displayText 0x00 [0x80]) = false := by decide
theorem test_wf_display_too_long : wfTc (.displayText 0x00 (List.replicate 256 0x41)) = false := by decide +kernel
theorem test_wf_lamp_name_too_long : wfTc (.lampControl (.byName (List.replicate 256 0x41)) 0x01) = false := by
  decide +kernel
theorem test_wf_illegal_of_legal : wfTc (.illegal [0x01]) = false := by decide

/-! ### Decoding, bit by bit from the spec's encodings -/

theorem test_decode_enterSbep : decodeOuter tc [0x00, 0x12, 0x34, 0x06, 0x00] = .decEnterSbep 0x12 0x34 := by decide
theorem test_decode_button : decodeOuter tc [0xA1, 0x10, 0x02, 0xB1, 0x00] = .decButton 0x10 0x02 := by decide
theorem test_decode_knob : decodeOuter tc [0xA1, 0x21, 0x05, 0xB1, 0x00] = .decKnob 0x21 0x05 := by decide
theorem test_decode_backlight : decodeOuter tc [0xA1, 0x01, 0x05, 0xB2, 0x00] = .decBacklight 0x01 0x05 := by decide
theorem test_decode_mute : decodeOuter tc [0xA2, 0x00, 0x01, 0xB3, 0x00] = .decAudioMute 0x00 0x01 := by decide
theorem test_decode_select : decodeOuter tc [0xA2, 0x00, 0x05, 0xB4, 0x00] = .decChanSelect 0x00 0x05 := by decide
theorem test_decode_ack : decodeOuter tc [0xA2, 0x07, 0x09, 0xB5, 0x00] = .decChanAck 0x07 0x09 := by decide
theorem test_decode_outerOther :
    decodeOuter tc [0xA3, 0x01, 0x02, 0xB3] = .decOuterOther (some 0xA3) (some 0x01) (some 0x02) (some 0xB3) := by decide
theorem test_decode_outerShort :
    decodeOuter tc [0xA1, 0x10, 0x01] = .decOuterOther (some 0xA1) (some 0x10) (some 0x01) none := by decide
theorem test_decode_sbText :
    decodeSbep tc Params.defaults [0xC1, 0x02, 0x06, 0x00, 0x00, 0x5E, 0x41, 0x5E, 0x5E, 0x42]
      = .decSbText 0x02 [0x5E, 0x41, 0x5E, 0x5E] := by decide
theorem test_decode_sbText_absolute :
    decodeSbep tc { Params.defaults with payloadEnd := .absolute }
      [0xC1, 0x00, 0x09, 0x00, 0x00, 0x5A, 0x4F, 0x4E, 0x45, 0x31, 0x00, 0x00] = .decSbText 0x00 [0x5A, 0x4F] := by decide
theorem test_decode_sbIcon :
    decodeSbep tc Params.defaults [0xC2, 0x02, 0x00, 0x00, 0xFF] = .decSbIcon 0x02 0xFF := by decide
theorem test_decode_sbOther :
    decodeSbep tc Params.defaults [0x55, 0x01, 0x03, 0x00, 0x09, 0xAA]
      = .decSbOther [0x55, 0x01, 0x03, 0x00, 0x09, 0xAA] := by decide
theorem test_decode_enterScan : decodeCommand [0x01] = .enterScan := by decide
theorem test_decode_reset : decodeCommand [0x02] = .reset := by decide
theorem test_decode_enterSub : decodeCommand [0x03, 0xD1] = .enterSub 0xD1 := by decide
theorem test_decode_setChannel : decodeCommand [0x04, 0xFF, 0xFF, 0xFF, 0xFE] = .setChannel 0xFFFFFFFE := by decide
theorem test_decode_sendButton : decodeCommand [0x05, 0x10, 0x01] = .sendButton 0x10 0x01 := by decide
theorem test_decode_displayText : decodeCommand [0x06, 0x07, 0x02, 0x48, 0x49] = .displayText 0x07 [0x48, 0x49] := by decide
theorem test_decode_lampId : decodeCommand [0x07, 0x00, 0x05, 0x01] = .lampControl (.byId 0x05) 0x01 := by decide
theorem test_decode_lampName :
    decodeCommand [0x07, 0x01, 0x03, 0x52, 0x45, 0x44, 0x01] = .lampControl (.byName (sym "RED")) 0x01 := by decide
theorem test_decode_illumLevel : decodeCommand [0x08, 0x03, 0xC8] = .illumLevel 0x03 0xC8 := by decide
theorem test_decode_genericEvent : decodeCommand [0x09, 0x07, 0x12, 0x34, 0x56, 0x78] = .genericEvent 0x07 0x12345678 := by
  decide
theorem test_decode_audioEnable : decodeCommand [0x0A, 0x07] = .audioEnable 0x07 := by decide
theorem test_decode_setRxFreq : decodeCommand [0x0B, 0x32, 0xB9, 0x6B, 0x94] = .setRxFreq 851012500 := by decide
theorem test_decode_setTxFreq : decodeCommand [0x0C, 0x08, 0xBB, 0xB7, 0xC0] = .setTxFreq 146520000 := by decide
theorem test_decode_readEeprom :
    decodeCommand [0x0D, 0xD1, 0x02, 0x00, 0x00, 0x03, 0x01, 0x00, 0x00, 0x04, 0x05]
      = .readEeprom 0xD1 0x02000003 0x01000004 0x05 := by decide
theorem test_decode_illegal : decodeCommand [0x0E] = .illegal [0x0E] := by decide
theorem test_decode_tooLong : decodeCommand [0x01, 0x00] = .illegal [0x01, 0x00] := by decide
theorem test_tableWord_outer : decodeTableWord 32 0xA12042B1 = some (.decKnob 0x20 0x42) := by decide
theorem test_tableWord_sbep : decodeTableWord 40 0xC209000001 = some (.decSbIcon 0x09 0x01) := by decide
theorem test_tableWord_command : decodeTableWord 24 0x011005 = some (.sendButton 0x10 0x01) := by decide
theorem test_encode_readEeprom :
    encode tc Params.defaults (.readEeprom 0xD1 0 65 0x01)
      = [0x0D, 0xD1, 0x00, 0x00, 0x00, 0x00, 0x00, 0x00, 0x00, 0x41, 0x01] := by decide

/-! ### Outer decode, one step each (section 3.1) -/

theorem test_O1 : decodedOf .idle [0x00, 0x12, 0x34, 0x06, 0x00]
    = emits .sbepPending [.log (.sbepEnter 0x12 0x34)] := by decide
theorem test_O2 : decodedOf .idle [0x00, 0x00, 0x00, 0x06]
    = emits .sbepPending [.log (.sbepEnter 0x00 0x00)] := by decide
theorem test_O5 : decodedOf .idle [0xA1, 0x10, 0x02, 0xB1, 0x00]
    = emits .idle [.log (.buttonRelease (.known (sym "PTT")) 0x02)] := by decide
theorem test_O6 : decodedOf .idle [0xA1, 0x99, 0x01, 0xB1, 0x00]
    = emits .idle [.log (.buttonPress (.unknown 0x99))] := by decide
theorem test_O8 : decodedOf .idle [0xA1, 0x20, 0xFF, 0xB1, 0x00]
    = emits .idle [.state (.setVolume 0xFF), .log (.knob (.known (sym "VOL")) 0xFF)] := by decide
theorem test_O9 : decodedOf .idle [0xA1, 0x21, 0x05, 0xB1, 0x00]
    = emits .idle [.log (.knob (.known (sym "DIAL")) 0x05)] := by decide
theorem test_O10 : decodedOf .idle [0xA1, 0x01, 0x05, 0xB2, 0x00] = emits .idle [.log (.backlight 0x01 0x05)] := by decide
theorem test_O11 : decodedOf .idle [0xA2, 0x00, 0x00, 0xB3, 0x00]
    = emits .idle [.state .mute, .note .muted] := by decide
theorem test_O13 : decodedOf .idle [0xA2, 0x00, 0x02, 0xB3, 0x00] = emits .idle [.log (.audioOther 0x02)] := by decide
theorem test_O14 : decodedOf .idle [0xA2, 0x00, 0x05, 0xB4, 0x00] = emits .idle [.log (.chanSelect 0x00 0x05)] := by decide
theorem test_O15 : decodedOf .idle [0xA2, 0x00, 0x00, 0xB5, 0x00] = emits .idle [.log (.chanAck 0x00 0x00)] := by decide
theorem test_O16 : decodedOf .idle [] = emits .idle [.log (.outerUnknown none none none none)] := by decide
theorem test_O24 : decodedOf .idle [0xA1, 0x00, 0x00, 0xB3, 0x00]
    = emits .idle [.log (.outerUnknown (some 0xA1) (some 0x00) (some 0x00) (some 0xB3))] := by decide

/-! ### SBEP decode, one step each (section 3.2) -/

theorem test_S4 : decodedOf .sbepPending [0xC1, 0x02, 0x06, 0x00, 0x00, 0x5E, 0x41, 0x5E, 0x5E, 0x42]
    = emits .idle [.state (.setSoftkeys [[0x41], [], []]), .note (.text (.known (sym "SOFTKEYS")) [0x5E, 0x41, 0x5E, 0x5E])] := by
  decide
theorem test_S8 : decodedOf .sbepPending [0xC1, 0x00, 0x06, 0x00, 0x00, 0x41, 0x00, 0x42, 0x00]
    = emits .idle [.state (.setZoneText [0x41, 0x00, 0x42]), .note (.text (.known (sym "ZONE")) [0x41, 0x00, 0x42])] := by
  decide
theorem test_S12 : decodedOf .sbepPending [0xC2, 0x09, 0x00, 0x00, 0x01]
    = emits .idle [.state (.setIcon (.unknown 0x09) .on), .note (.icon (.unknown 0x09) .on)] := by decide
theorem test_S13 : decodedOf .sbepPending [0xC2, 0x02, 0x00, 0x00, 0xFF]
    = emits .idle [.state (.setIcon (.known (sym "MON")) (.raw 0xFF)), .note (.icon (.known (sym "MON")) (.raw 0xFF))] := by
  decide
theorem test_S14 : decodedOf .sbepPending [0xC2, 0x01, 0x00, 0x00]
    = emits .idle [.log (.sbepUnknown [0xC2, 0x01, 0x00, 0x00] (some 0xC2) (some 0x01) (some 0x00) none)] := by decide
theorem test_S17 : decodedOf .sbepPending [0x00, 0x12, 0x34, 0x06, 0x00]
    = emits .idle
      [.log (.sbepUnknown [0x00, 0x12, 0x34, 0x06, 0x00] (some 0x00) (some 0x12) (some 0x34) (some 0x00))] := by decide

/-! ### Commands, one step each (section 3.3) -/

theorem test_E1 : outputsOf (cmdState [0x01] (oks 1)) = some [.issued (.sendOuter 0xA2 0x00 0x00 0xE1), .result .ok] := by
  decide
theorem test_E2 : outputsOf (cmdState [0x02] (oks 1)) = some [.issued (.sendOuter 0x00 0x00 0x00 0xE0), .result .ok] := by
  decide
theorem test_E3 : outputsOf (cmdState [0x03, 0xD1] (oks 1)) = some [.issued (.enterSub 0xD1), .result .ok] := by decide
theorem test_E4 : outputsOf (cmdState [0x03, 0x55] []) = some [.result (.error (.moduleCode 0x55))] := by decide
theorem test_E5 : outputsOf (cmdState [0x04, 0x00, 0x00, 0x00, 0x05] (oks 2))
    = some [.issued (.sendOuter 0xA2 0x00 0x05 0xB4), .issued (.sendOuter 0xA2 0x00 0x00 0xB5), .result .ok] := by decide
theorem test_E6 : outputsOf (cmdState [0x04, 0x00, 0x00, 0x00, 0x05] [.fail .timeout])
    = some [.issued (.sendOuter 0xA2 0x00 0x05 0xB4), .result (.error (.transport .timeout 0))] := by decide
theorem test_E8 : outputsOf (cmdState [0x05, 0x10, 0x01] (oks 1))
    = some [.issued (.sendOuter 0xA1 0x10 0x01 0xB1), .result .ok] := by decide
theorem test_E9 : outputsOf (cmdState [0x06, 0x00, 0x05, 0x48, 0x45, 0x4C, 0x4C, 0x4F] (oks 3))
    = some [.issued (.enterSub 0xD2),
        .issued (.sendSub 0xF1 [0x48, 0x45, 0x4C, 0x4C, 0x4F, 0x00, 0x00, 0x00, 0x00, 0x00]),
        .issued .leaveSub, .result .ok] := by decide
theorem test_E12 : outputsOf (cmdState [0x06, 0x00, 0x01, 0x48] [.done, .fail .disconnect])
    = some [.issued (.enterSub 0xD2), .issued (.sendSub 0xF1 [0x48, 0x00]),
        .result (.error (.transport .disconnect 1))] := by decide
theorem test_E15 : outputsOf (cmdState [0x07, 0x01, 0x03, 0x52, 0x45, 0x44, 0x01] (oks 3))
    = some [.issued (.enterSub 0xD2), .issued (.sendSub 0xF2 [0x01, 0x01, 0x00]), .issued .leaveSub, .result .ok] := by
  decide
theorem test_E16 : outputsOf (cmdState [0x07, 0x01, 0x04, 0x42, 0x4C, 0x55, 0x45, 0x01] [])
    = some [.result (.error (.lampName (sym "BLUE")))] := by decide
theorem test_E18 : outputsOf (cmdState [0x08, 0x03, 0xC8] (oks 1))
    = some [.issued (.sendOuter 0xA1 0x03 0xC8 0xE2), .result .ok] := by decide
theorem test_E19 : outputsOf (cmdState [0x09, 0x07, 0x00, 0x00, 0x12, 0x34] (oks 1))
    = some [.issued (.sendOuter 0xA1 0x07 0x34 0xE3), .result .ok] := by decide
theorem test_E22 : outputsOf (cmdState [0x0A, 0x00] (oks 1))
    = some [.issued (.sendOuter 0xA2 0x00 0x00 0xB3), .result .ok] := by decide
theorem test_E23 : outputsOf (cmdState [0x0A, 0x07] (oks 1))
    = some [.issued (.sendOuter 0xA2 0x00 0x01 0xB3), .result .ok] := by decide
theorem test_E24 : outputsOf (cmdState [0x0B, 0x32, 0xB9, 0x6B, 0x94] (oks 1))
    = some [.issued (.sendOuter 0xA2 0x29 0x82 0xE4), .result .ok] := by decide
theorem test_E25 : outputsOf (cmdState [0x0C, 0x08, 0xBB, 0xB7, 0xC0] (oks 1))
    = some [.issued (.sendOuter 0xA2 0x71 0x33 0xE5), .result .ok] := by decide
theorem test_E29 : outputsOf (cmdState [0x04, 0x00, 0x00] []) = some [.result (.error (.illegalCommand (some 0x04)))] := by
  decide
theorem test_E30 : outputsOf (cmdState [] []) = some [.result (.error (.illegalCommand none))] := by decide
theorem test_tie_odd : (freqHi 374996875, freqLo 374996875) = (0x00, 0x00) := by decide
theorem test_tie_even : (freqHi 375003125, freqLo 375003125) = (0x00, 0x00) := by decide

/-! ### The bulk read (section 3.5) -/

theorem test_B1 : outputsOf (cmdState [0x0D, 0xD1, 0x00, 0x00, 0x00, 0x0A, 0x00, 0x00, 0x00, 0x14, 0x00]
      (oks 5 ++ [goodReply 0x0A, .done]))
    = some (pre 0xD1 ++ [.issued (.sendSub 0xF3 [0x00, 0x00, 0x0A]), .issued .recvSub, .issued .leaveSub,
        .result (.okBytes (goodChunk 0x0A))]) := by decide
theorem test_B9 : outputsOf (cmdState [0x0D, 0xD1, 0x00, 0x00, 0x00, 0x00, 0x00, 0x00, 0x00, 0x40, 0x00]
      (oks 5 ++ [.ok 0xF5 [0x11, 0x22, 0x33]]))
    = some (pre 0xD1 ++ [.issued (.sendSub 0xF3 [0x00, 0x00, 0x00]), .issued .recvSub,
        .result (.error (.badOpcode 0 0xF5))]) := by decide

/-! ### Construction and stops (section 3.6) -/

theorem test_K2 : (match step { State.reset with requests := [.construct tc (sym "OTHER")] } with
    | .next t => some (t.op, t.trace)
    | _ => none) = some (.configFault, [.constructed (some (.variantMismatch (sym "OTHER")))]) := by decide
theorem test_refused : step { cmdState [0x01] [] with op := .configFault } = .refused .notOperational := rfl
theorem test_stuck : step { State.reset with seq := .step .enterScan 0 } = .fault .noResponse := rfl
theorem test_idle : step State.reset = .next State.reset := rfl

/-! ### The text syntax (R92, P4) -/

theorem test_assemble_setChannel : assembleWord tc Params.defaults "set-channel -1".toList
    = some [0x04, 0xFF, 0xFF, 0xFF, 0xFF] := by decide
theorem test_assemble_text : assembleWord tc Params.defaults
      ("display-text ".toList ++ [quoteMark, 'H', backslash, quoteMark, quoteMark] ++ ", 0".toList)
    = some [0x06, 0x00, 0x02, 0x48, 0x22] := by decide
theorem test_assemble_lamp : assembleWord tc Params.defaults "lamp-control RED, 1".toList
    = some [0x07, 0x01, 0x03, 0x52, 0x45, 0x44, 0x01] := by decide
theorem test_assemble_read : assembleWord tc Params.defaults "read-eeprom-range 0xD1, 0, 128, progress".toList
    = some [0x0D, 0xD1, 0x00, 0x00, 0x00, 0x00, 0x00, 0x00, 0x00, 0x80, 0x01] := by decide
theorem test_assemble_flag : assemble "audio-enable 7".toList = none := by decide

/-! ### The reference sinks (W3) -/

theorem test_slots : (filledSlots 0, filledSlots 11, filledSlots 12, filledSlots 128, filledSlots 239, filledSlots 255)
    = (0, 0, 1, 10, 19, 20) := by decide

/-! ### The hypotheses of the statements are met -/

/-- After reset, in this mode, with these requests. -/
def reqState (m : Mode) (rs : List Request) : State := { State.reset with mode := m, requests := rs }

/-- After reset, with these responses to come. -/
def respState (rs : List Response) : State := { State.reset with responses := rs }

/-- A READ_EEPROM of `[0, 65)` at step `k`, with these bulk-read registers. -/
def bulkState (k cur : Nat) (acc : List Byte) : State :=
  { State.reset with seq := .step (.readEeprom 0xD1 0 65 0x01) k, bulk := ⟨cur, 65, 0xD1, acc, true⟩ }

/-- One well-formed term of every constructor. -/
def oneOfEach : List Instr :=
  [.decEnterSbep 0x12 0x34, .decButton 0x10 0x01, .decKnob 0x20 0xFF, .decBacklight 0x01 0x05, .decAudioMute 0x00 0x02,
   .decChanSelect 0x00 0x05, .decChanAck 0x00 0x00, .decOuterOther none none none none,
   .decOuterOther (some 0xA3) (some 0x00) (some 0x00) (some 0xB3), .decSbText 0x00 [], .decSbIcon 0x01 0xFE,
   .decSbOther [0xC1], .decSbOther [0xC2, 0x01, 0x00, 0x00], .enterScan, .reset, .enterSub 0xD1, .setChannel 0xFFFFFFFF,
   .sendButton 0x10 0x01] ++
  [.displayText 0x00 [0x7F], .lampControl (.byId 0x05) 0x01, .lampControl (.byName (sym "RED")) 0x01, .illumLevel 0x03 0xC8,
   .genericEvent 0x07 0x1234, .audioEnable 0x07, .setRxFreq 851012500, .setTxFreq 0xFFFFFFFF,
   .readEeprom 0xD1 0 65 0x01, .illegal [], .illegal [0x01, 0x00]]

theorem witness_DecodeInvertsEncode : oneOfEach.all wfTc = true := by decide
theorem witness_DecodeInvertsEncode_longest :
    [Instr.decSbText 0x00 (List.replicate 253 0x41), .displayText 0x00 (List.replicate 255 0x41),
      .lampControl (.byName (List.replicate 255 0x41)) 0x01].all wfTc = true := by decide +kernel
theorem witness_TruncatedAndPaddedOuterFrames :
    let s := reqState .idle [.window [0xA1, 0x10, 0x01]]
    s.op = .operational ∧ s.seq = .ready ∧ s.mode = .idle ∧ ([0xA1, 0x10, 0x01] : List Byte).length < 4 ∧
      s.requests = .window [0xA1, 0x10, 0x01] :: [] ∧ ([0xA1, 0x10, 0x01, 0xB1] : List Byte).length = 4 := by decide
theorem witness_BodyLengthAndPayload :
    Params.defaults.payloadEnd = .relative ∧
      ({ Params.defaults with payloadEnd := .absolute } : Params).payloadEnd = .absolute := by decide
theorem witness_MultiByteFieldsAreBigEndian : 0 < 2 ^ 24 ∧ 0xFFFFFF < 2 ^ 24 := by decide
theorem witness_AssembledCommandIsWellFormed :
    assemble "set-channel 5".toList = some (.setChannel 5) ∧
      (IsNumeral (0x00 : Byte).toNat "0".toList ∧ IsNumeral (0xFF : Byte).toNat "255".toList ∧
        IsNumeral (0xFF : Byte).toNat "0xff".toList ∧ IsNumeral (0x01 : Byte).toNat "1".toList) ∧
      (IsNumeral (0xFFFFFFFF : Word32).toNat "0xffffffff".toList ∧ IsNumeral (65 : Word32).toNat "65".toList) ∧
      (IsNumeral (0x80000000 : Word32).toInt.natAbs "2147483648".toList ∧ (0x80000000 : Word32).toInt < 0) ∧
      IsNumeral (0x7FFFFFFF : Word32).toInt.natAbs "0x7fffffff".toList ∧ 0 ≤ (0x7FFFFFFF : Word32).toInt := by
  unfold IsNumeral
  decide
theorem witness_AssembledCommandIsWellFormed_texts :
    (['A', quoteMark, backslash].all isPrintable = true ∧ ['A', quoteMark, backslash].length ≤ 255) ∧
      (isLetter 'R' = true ∧ ['E', 'D', '_', '2'].all isIdentChar = true ∧ ['R', 'E', 'D', '_', '2'].length ≤ 255) := by
  decide
theorem witness_IconStateOfEveryOpcode :
    (0x03 : Byte) ≠ 0x00 ∧ (0x03 : Byte) ≠ 0x01 ∧ (0x03 : Byte) ≠ 0x02 ∧ (0x03 : Byte) ≠ 0xFE := by decide
theorem witness_FrequencyStepRounding :
    (2 * (3124 % 6250) < 6250 ∧ 6250 < 2 * (3126 % 6250)) ∧ (2 * (3125 % 6250) = 6250 ∧ 3125 / 6250 % 2 = 0) ∧
      (2 * (9375 % 6250) = 6250 ∧ 9375 / 6250 % 2 = 1) := by decide
theorem witness_EnterSbepFrame :
    State.reset.op = .operational ∧ State.reset.mode = .idle ∧ (reqState .sbepPending []).mode = .sbepPending := by decide
theorem witness_ButtonFrame :
    State.reset.op = .operational ∧ State.reset.mode = .idle ∧ State.reset.cfg.rowReachable 1 = true ∧
      (0x02 : Byte) ≠ 0x01 ∧ (State.reset.cfg.buttonTable.lookup 0x10 = some ⟨sym "PTT", .button, false⟩) ∧
      State.reset.cfg.buttonTable.lookup 0x99 = none := by decide
theorem witness_ButtonFrame_kind :
    (∀ e, State.reset.cfg.buttonTable.lookup 0x10 = some e → e.kind = .button) ∧
      (∀ e, State.reset.cfg.buttonTable.lookup 0x99 = some e → e.kind = .button) := by
  refine ⟨fun e h => ?_, fun e h => ?_⟩
  · rw [show State.reset.cfg.buttonTable.lookup 0x10 = some ⟨sym "PTT", .button, false⟩ by decide] at h
    cases h
    rfl
  · rw [show State.reset.cfg.buttonTable.lookup 0x99 = none by decide] at h
    cases h
theorem witness_KnobFrame :
    State.reset.op = .operational ∧ State.reset.mode = .idle ∧ State.reset.cfg.rowReachable 1 = true ∧
      State.reset.cfg.buttonTable.lookup 0x20 = some ⟨sym "VOL", .knob, true⟩ ∧
      State.reset.cfg.buttonTable.lookup 0x21 = some ⟨sym "DIAL", .knob, false⟩ := by decide
theorem witness_LogOnlyFrames :
    State.reset.op = .operational ∧ State.reset.mode = .idle ∧ State.reset.cfg.rowReachable 2 = true ∧
      State.reset.cfg.rowReachable 4 = true ∧ State.reset.cfg.rowReachable 5 = true := by decide
theorem witness_AudioMuteFrame :
    State.reset.op = .operational ∧ State.reset.mode = .idle ∧ State.reset.cfg.rowReachable 3 = true ∧
      (0x02 : Byte) ≠ 0x00 ∧ (0x02 : Byte) ≠ 0x01 := by decide
theorem witness_OuterFallback :
    State.reset.op = .operational ∧ State.reset.mode = .idle ∧ ([0xA1, 0x10, 0x01] : List Byte).length < 4 ∧
      ((0xA1 : Byte), (0xB3 : Byte)) ∉ State.reset.cfg.outerRows := by decide
theorem witness_DisplayTextFrame :
    State.reset.op = .operational ∧ (reqState .sbepPending []).mode = .sbepPending ∧
      State.reset.cfg.subdevTable.lookup 0x00 = some ⟨sym "ZONE", .zone⟩ ∧
      State.reset.cfg.subdevTable.lookup 0x01 = some ⟨sym "CHAN", .channel⟩ ∧
      State.reset.cfg.subdevTable.lookup 0x02 = some ⟨sym "SOFTKEYS", .softkeys⟩ ∧
      State.reset.cfg.subdevTable.lookup 0x03 = some ⟨sym "AUX", .other⟩ ∧
      State.reset.cfg.subdevTable.lookup 0x07 = none := by decide
theorem witness_DisplayIconFrame :
    State.reset.op = .operational ∧ (reqState .sbepPending []).mode = .sbepPending ∧
      State.reset.cfg.sbIconAddr ≠ State.reset.cfg.sbTextAddr := by decide
theorem witness_SbepFallback :
    let s := reqState .sbepPending []
    s.op = .operational ∧ s.mode = .sbepPending ∧ ([0xC1] : List Byte).length < 2 ∧
      ([0xC2, 0x01, 0x00, 0x00] : List Byte).length < 5 ∧ ([0xC2, 0x01, 0x00, 0x00] : List Byte)[0]? ≠ some s.cfg.sbTextAddr ∧
      ([0x55, 0x01] : List Byte)[0]? ≠ some s.cfg.sbTextAddr ∧ ([0x55, 0x01] : List Byte)[0]? ≠ some s.cfg.sbIconAddr := by
  decide
theorem witness_OuterDecodeNeverRaises :
    let s := reqState .idle [.window []]
    s.op = .operational ∧ s.seq = .ready ∧ s.mode = .idle ∧ s.requests = .window [] :: [] := by decide
theorem witness_SbepDecodeReturnsToIdle :
    let s := reqState .sbepPending [.window []]
    s.op = .operational ∧ s.seq = .ready ∧ s.mode = .sbepPending ∧ s.requests = .window [] :: [] := by decide
theorem witness_ModeSequence :
    let s := reqState .idle [.window [0x00, 0x12, 0x34, 0x06]]
    s.op = .operational ∧ s.seq = .ready ∧ s.requests = .window [0x00, 0x12, 0x34, 0x06] :: [] ∧
      (∃ t, step s = .next t ∧ t.mode = .sbepPending) :=
  ⟨rfl, rfl, rfl, _, rfl, rfl⟩
theorem witness_ModeSequence_second :
    let s := reqState .sbepPending []
    s.mode = .sbepPending ∧ s.cfg.sbTextAddr ≠ 0x00 ∧ s.cfg.sbIconAddr ≠ 0x00 := by decide
/-- The responses of the command statements, at a state that is Operational and Ready: none, one Ok, two, three, and a
failure at each step. For EnterScanCommand, ResetCommand, SendButtonCommand, IlluminationLevelCommand,
GenericEventCommand, AudioEnableCommand and SetFrequencyCommands these are all the hypotheses there are. -/
theorem witness_CommandResponses :
    (respState []).op = .operational ∧ (respState []).seq = .ready ∧ (respState []).responses = [] ∧
      (respState (oks 1)).responses = .ok 0x00 [] :: [] ∧ (respState (oks 2)).responses = .ok 0x00 [] :: .ok 0x00 [] :: [] ∧
      (respState (oks 3)).responses = .ok 0x00 [] :: .ok 0x00 [] :: .ok 0x00 [] :: [] ∧
      (respState [.fail .timeout]).responses = .fail .timeout :: [] ∧
      (respState [.done, .fail .other]).responses = .ok 0x00 [] :: .fail .other :: [] ∧
      (respState [.done, .done, .fail .other]).responses = .ok 0x00 [] :: .ok 0x00 [] :: .fail .other :: [] := by decide
theorem witness_EnterSubCommand :
    (∃ name, State.reset.cfg.moduleTable.lookup name = some 0xD1) ∧
      ¬ ∃ name, State.reset.cfg.moduleTable.lookup name = some 0x55 := by
  refine ⟨⟨sym "RADIO", by decide⟩, ?_⟩
  rintro ⟨name, h⟩
  rw [show State.reset.cfg.moduleTable = [(sym "RADIO", 0xD1), (sym "DISPLAY", 0xD2)] from rfl, List.lookup_cons] at h
  split at h
  · exact absurd h (by decide)
  · rw [List.lookup_cons] at h
    split at h
    · exact absurd h (by decide)
    · cases h
theorem witness_SetChannelCommand :
    (0 ≤ (0 : Word32).toInt ∧ (0 : Word32).toInt < 255) ∧ (0 ≤ (254 : Word32).toInt ∧ (254 : Word32).toInt < 255) ∧
      ¬ (0 ≤ (255 : Word32).toInt ∧ (255 : Word32).toInt < 255) ∧
      ¬ (0 ≤ (0xFFFFFFFF : Word32).toInt ∧ (0xFFFFFFFF : Word32).toInt < 255) := by decide
theorem witness_SendButtonCommand : State.reset.mode = .idle ∧ State.reset.cfg.rowReachable 1 = true := by decide
theorem witness_DisplayTextCommand :
    (List.replicate 14 (0x41 : Byte)).length ≤ 14 ∧ 14 < (List.replicate 15 (0x41 : Byte)).length ∧
      State.reset.params.offsetPrefix = false ∧
      ({ State.reset with params := { Params.defaults with offsetPrefix := true } } : State).params.offsetPrefix = true ∧
      ([0x48, 0x7F] : List Byte).length = (0x02 : Byte).toNat ∧ ∀ b ∈ ([0x48, 0x7F] : List Byte), b.toNat ≤ 0x7F := by decide
theorem witness_LampControlCommand :
    (sym "RED").length = (0x03 : Byte).toNat ∧ State.reset.cfg.lampTable.lookup (sym "RED") = some 0x01 ∧
      State.reset.cfg.lampTable.lookup (sym "BLUE") = none := by decide
theorem witness_IllegalCommandWord : legalWord [0x04, 0x00, 0x00] = false ∧ legalWord [] = false := by decide
theorem witness_BulkReadValidation :
    (16 : Word32).toNat ≤ (16 : Word32).toNat ∧
      ((0 : Word32).toNat < (16777217 : Word32).toNat ∧ 2 ^ 24 < (16777217 : Word32).toNat) ∧
      ((16777152 : Word32).toNat < (16777216 : Word32).toNat ∧ (16777216 : Word32).toNat ≤ 2 ^ 24) ∧
      (respState []).responses = [] := by decide
theorem witness_BulkReadPreamble :
    (10 : Word32).toNat < (20 : Word32).toNat ∧ (20 : Word32).toNat ≤ 2 ^ 24 ∧
      (respState (oks 4)).responses = [.ok 0x00 [], .ok 0x00 [], .ok 0x00 [], .ok 0x00 []] := by decide
theorem witness_BulkReplyChecks :
    let s := bulkState 6 0 []
    s.seq = .step (.readEeprom 0xD1 0 65 0x01) 6 ∧ (0xF5 : Byte) ≠ s.cfg.eeReplyOpcode ∧
      ([0x00, 0x00] : List Byte).length < 3 ∧ ([0x00, 0x00, 0x41] : List Byte).take 3 ≠ addr3 s.bulk.cur ∧
      (([0x00, 0x00, 0x00] : List Byte).take 3 = addr3 s.bulk.cur ∧ ([0x00, 0x00, 0x00] : List Byte).length - 3 ≠ 64) ∧
      ((addr3 0 ++ goodChunk 0).take 3 = addr3 s.bulk.cur ∧ (addr3 0 ++ goodChunk 0).length = 67) := by decide
theorem witness_BulkSequencerTable :
    (∀ k < 8, (bulkState k 0 []).seq = .step (.readEeprom 0xD1 0 65 0x01) k) ∧ (goodChunk 0).length = 64 ∧
      (bulkState 6 0 []).bulk.cur + 64 < (bulkState 6 0 []).bulk.endAddr ∧
      (bulkState 6 64 []).bulk.endAddr ≤ (bulkState 6 64 []).bulk.cur + 64 := by
  refine ⟨fun k _ => rfl, by decide, by decide, by decide⟩
theorem witness_BulkReadReturnsEveryChunk :
    let s := respState (oks 5 ++ [goodReply 0, .done, goodReply 64, .done])
    let chunks := [goodChunk 0, goodChunk 64]
    s.op = .operational ∧ s.seq = .ready ∧ (0 : Word32).toNat < (65 : Word32).toNat ∧ (65 : Word32).toNat ≤ 2 ^ 24 ∧
      chunks.length = chunkCount (0 : Word32).toNat (65 : Word32).toNat ∧ (∀ c ∈ chunks, c.length = 64) ∧
      s.responses = List.replicate 4 .done ++ chunkReplies s.cfg (0 : Word32).toNat chunks ++ [.done] ++ [] := by decide
theorem witness_BulkResultIsWholeOrNothing :
    let s := respState (oks 5 ++ [goodReply 0, .done])
    s.seq = .ready ∧ ∃ t, exec (.readEeprom 0xD1 0 64 0x00) s = .next t ∧ t.seq = .ready :=
  ⟨rfl, _, rfl, rfl⟩
/-- A read-eeprom that waits for the response to its LeaveSub, both chunks in. -/
def lastStep (rs : List Response) : State := { bulkState 7 128 (goodChunk 0 ++ goodChunk 64) with responses := rs }
theorem lastStep_legal (rs : List Response) : (lastStep rs).Legal := by
  intro _ c k h
  cases h
  have hb : (lastStep rs).bulk = ⟨128, 65, 0xD1, goodChunk 0 ++ goodChunk 64, true⟩ := rfl
  refine ⟨rfl, ?_⟩
  dsimp only
  rw [hb]
  exact ⟨by decide, by decide, by decide, rfl, rfl, by decide, by simp [goodChunk],
    ⟨2, by simp [goodChunk, Config.chunk]⟩, by decide, by decide, by decide⟩
theorem witness_BulkResultIsWholeOrNothing_later :
    (lastStep (oks 1)).Legal ∧ inProgress (lastStep (oks 1)) = true ∧
      (lastStep (oks 1)).seq = .step (.readEeprom 0xD1 0 65 0x01) 7 ∧
      ∃ t, step (lastStep (oks 1)) = .next t ∧ t.seq = .ready :=
  ⟨lastStep_legal _, by decide, rfl, _, rfl, rfl⟩
theorem witness_ChunkArithmetic :
    (0 < 65 ∧ 65 ≤ 2 ^ 24) ∧ (0xFFFFC0 < 2 ^ 24) ∧ 1 < chunkCount 0 65 ∧ addr3 0x40 = addr3 (0 + 64 * 1) := by decide
theorem witness_RaiseEndsTheTransaction :
    ∀ m start endAddr pr k,
      ({ State.reset with seq := .step .enterScan 0 } : State).seq ≠ .step (.readEeprom m start endAddr pr) k := by
  intro m start endAddr pr k h
  cases h
theorem witness_CommandReportsOnceAndLast :
    Instr.enterScan.port = .command ∧ (∃ t, exec .enterScan (respState []) = .next t ∧ t.seq ≠ .ready) ∧
      ∃ t, exec .enterScan (respState (oks 1)) = .next t ∧ t.seq = .ready :=
  ⟨rfl, ⟨_, rfl, by decide⟩, _, rfl, rfl⟩
theorem witness_CommandReportsOnceAndLast_later :
    (inProgress (lastStep (oks 1)) = true ∧ ∃ t, step (lastStep (oks 1)) = .next t ∧ t.seq = .ready) ∧
      inProgress (bulkState 3 0 []) = true ∧ ∃ t, step (bulkState 3 0 []) = .next t ∧ t.seq ≠ .ready :=
  ⟨⟨by decide, _, rfl, rfl⟩, by decide, _, rfl, by decide⟩
theorem witness_RefusedUnlessOperational :
    let s := { reqState .idle [.window []] with op := .configFault }
    s.op ≠ .operational ∧ s.requests = .window [] :: [] ∧ exec .enterScan s = .refused .notOperational ∧
      ({ s with requests := [.command []], op := .unconstructed } : State).requests = .command [] :: [] :=
  ⟨by decide, rfl, rfl, rfl⟩
theorem witness_OnlyAMissingResponseIsStuck :
    let s := { State.reset with seq := .step .enterScan 0 }
    inProgress s = true ∧ s.responses = [] ∧ waitsForDelay s = false ∧ step s = .fault .noResponse :=
  ⟨by decide, rfl, by decide, rfl⟩
theorem witness_OnlyAMissingResponseIsStuck_delay :
    inProgress (bulkState 3 0 []) = true ∧ (bulkState 3 0 []).responses = [] ∧ waitsForDelay (bulkState 3 0 []) = true := by
  decide
theorem witness_WaitingTransactionGoesOn :
    (inProgress (lastStep (oks 1)) = true ∧ (lastStep (oks 1)).responses = .done :: [] ∧
      (lastStep (oks 1)).seq ≠ .ready) ∧ State.reset.seq = .ready ∧
      (drain (oks 1) (lastStep [])).seq = .ready ∧ (drain [] (lastStep [])).seq ≠ .ready := by
  decide
theorem witness_CommandsDoNotReadTheMode :
    Instr.reset.port = .command ∧ ∃ t, exec .reset (respState (oks 1)) = .next t := ⟨rfl, _, rfl⟩
theorem witness_AgentsKeepApart :
    (∃ t, exec .reset (respState (oks 1)) = .next t) ∧ (Instr.decEnterSbep 0x12 0x34).port ≠ .command ∧
      ∃ t, exec (.decEnterSbep 0x12 0x34) State.reset = .next t := ⟨⟨_, rfl⟩, by decide, _, rfl⟩
theorem witness_ConstructionGate :
    let s := reqState .idle [.construct tc (sym "OTHER")]
    inProgress s = false ∧ s.requests = .construct tc (sym "OTHER") :: [] ∧ sym "OTHER" ≠ tc.variant ∧
      sym "TC-HEAD" = tc.variant := by decide
theorem witness_StepRunsTheDecodedInstruction :
    inProgress State.reset = false ∧ State.reset.requests = [] ∧
      (reqState .idle [.window [0xA1]]).requests = .window [0xA1] :: [] ∧
      (reqState .idle [.command [0x01]]).requests = .command [0x01] :: [] := by decide
theorem witness_OnlyConstructionWritesTheConfiguration :
    (∃ t, step (reqState .idle [.construct tc (sym "TC-HEAD")]) = .next t) ∧
      (∃ t, step (reqState .idle [.window []]) = .next t) ∧ ∃ t, step (reqState .idle [.command []]) = .next t :=
  ⟨⟨_, rfl⟩, ⟨_, rfl⟩, _, rfl⟩
theorem witness_StepOnlyAddsOutputsAndStopsWaiting :
    ∃ t, step (reqState .idle [.command [0x01]]) = .next t ∧ inProgress t = true := ⟨_, rfl, by decide⟩
theorem witness_StepKeepsSequencerLegal :
    (lastStep (oks 1)).Legal ∧ ∃ t, step (lastStep (oks 1)) = .next t := ⟨lastStep_legal _, _, rfl⟩
theorem witness_PaddedDisplayTextIsStoredTrimmed :
    (∀ b, (sym "CH 12").getLast? = some b → b ≠ 0x00 ∧ isSpace b = false) ∧ (∀ b ∈ sym "  ", isSpace b = true) ∧
      ∀ b, ([] : List Byte).getLast? = some b → b ≠ 0x00 ∧ isSpace b = false := by
  refine ⟨fun b h => ?_, by decide, fun b h => by cases h⟩
  rw [show (sym "CH 12").getLast? = some 0x32 by decide] at h
  cases h
  decide

end Sys2Proof.Tests
end

/-! PROOFS of the scope statements (spec/00_scope.md). What one instruction and one step keep: the two agents' registers
apart, the outputs only added to, and a transaction left unfinished only when no response is there. -/

namespace Sys2Proof.Machine

/-! ### What one instruction can do -/

/-- R33, R34, R170: a command, rejected or run, keeps the registers of `SameBlock` and only adds outputs. -/
theorem exec_command_grows {i : Instr} {s t : State} (hi : i.port = .command) (h : exec i s = .next t) :
    Grows s t := by
  obtain ⟨e, rfl⟩ | ⟨-, -, rfl⟩ | ⟨m, a, b, p, -, rfl, -, -⟩ := exec_command_cases hi h
  · exact endTransaction_grows _ s
  · exact runCommand_grows i s
  · have hload : Grows s (loadBulk m a b p s) := ⟨⟨rfl, rfl, rfl, rfl, rfl⟩, [], by simp [loadBulk]⟩
    exact hload.trans (runCommand_grows _ _)

/-- R170, R263: after a command `seq` is Ready, or every response has been taken. -/
theorem exec_command_stops {i : Instr} {s t : State} (hi : i.port = .command) (h : exec i s = .next t) :
    t.seq = .ready ∨ t.responses = [] := by
  obtain ⟨e, rfl⟩ | ⟨-, -, rfl⟩ | ⟨m, a, b, p, -, rfl, -, -⟩ := exec_command_cases hi h
  · exact .inl (endTransaction_spec _ s).2.1
  · exact drain_stops _ _
  · exact drain_stops _ _

/-! ### What one step can do -/

/-- `seq` Ready means that no transaction is in progress (R21). -/
theorem inProgress_of_ready {s : State} (h : s.seq = .ready) : inProgress s = false := by
  simp [inProgress, h]

/-- A Delay that completes takes no response (R244, log 3), because it commutes with writing the response list. -/
theorem passDelay_responses (s : State) : (passDelay s).responses = s.responses :=
  calc
    (passDelay s).responses = (passDelay (s.overlay s.mode s.responses)).responses := rfl
    _ = s.responses := by rw [passDelay_overlay, State.overlay_responses]

/-- R11, R59, R273: what a step that answers a next state has done. -/
theorem step_eq_next {s t : State} (h : step s = .next t) :
    (inProgress s = true ∧ resume s = .next t) ∨
      inProgress s = false ∧
        ((s.requests = [] ∧ t = s) ∨
          (∃ rom v rest, s.requests = .construct rom v :: rest ∧ t = construct rom v { s with requests := rest }) ∨
          (∃ w rest, s.requests = .window w :: rest ∧
            exec (windowInstr s w) { s with requests := rest } = .next t) ∨
          ∃ w rest, s.requests = .command w :: rest ∧
            exec (commandInstr s w) { s with requests := rest } = .next t) := by
  cases hp : inProgress s with
  | true => exact .inl ⟨rfl, step_inProgress hp ▸ h⟩
  | false =>
    refine .inr ⟨rfl, ?_⟩
    match hr : s.requests with
    | [] =>
      rw [step_idle hp hr] at h
      exact .inl ⟨rfl, (Host.Outcome.next.inj h).symm⟩
    | .construct rom v :: rest =>
      rw [step_construct hp hr] at h
      exact .inr (.inl ⟨rom, v, rest, rfl, (Host.Outcome.next.inj h).symm⟩)
    | .window w :: rest => exact .inr (.inr (.inl ⟨w, rest, rfl, step_window hp hr ▸ h⟩))
    | .command w :: rest => exact .inr (.inr (.inr ⟨w, rest, rfl, step_command hp hr ▸ h⟩))

/-! ### What is kept: added outputs, and no transaction left unfinished with a response there -/

/-- From `s` to `t` outputs were only added, and a transaction in progress at `t` waits for a response. -/
def AddsAndWaits (s t : State) : Prop :=
  (∃ out : List Output, t.trace = s.trace ++ out) ∧ (inProgress t = true → t.responses = [])

theorem AddsAndWaits.of_not_inProgress {s t : State} (hout : ∃ out : List Output, t.trace = s.trace ++ out)
    (hp : inProgress t = false) : AddsAndWaits s t :=
  ⟨hout, fun h => by simp [hp] at h⟩

theorem AddsAndWaits.of_stops {s t : State} (hout : ∃ out : List Output, t.trace = s.trace ++ out)
    (hstop : t.seq = .ready ∨ t.responses = []) : AddsAndWaits s t := by
  obtain hready | hnone := hstop
  · exact .of_not_inProgress hout (inProgress_of_ready hready)
  · exact ⟨hout, fun _ => hnone⟩

/-- A transaction that goes on runs to its end or takes every response. -/
theorem resume_addsAndWaits {s t : State} (h : resume s = .next t) : AddsAndWaits s t := by
  obtain ⟨r, rs, -, rfl⟩ | ⟨hnone, -, rfl⟩ := resume_eq_next h
  · exact .of_stops (drain_grows _ s).2 (drain_stops _ s)
  · exact .of_stops (passDelay_grows s).2 (.inr ((passDelay_responses s).trans hnone))

/-- R290: after a construction `seq` is Ready or the block is not Operational. -/
theorem construct_addsAndWaits (rom : Rom) (v : Symbol) (s : State) : AddsAndWaits s (construct rom v s) := by
  obtain ⟨-, -, -, -, hseq, htrace⟩ | ⟨-, hop, -, htrace⟩ := construct_cases rom v s
  · exact .of_stops ⟨_, htrace⟩ (.inl hseq)
  · exact .of_not_inProgress ⟨_, htrace⟩ (by simp [inProgress, hop])

/-- With no transaction in progress, a command runs as far as it can and a decode class starts none. -/
theorem exec_addsAndWaits {i : Instr} {s t : State} (hp : inProgress s = false) (h : exec i s = .next t) :
    AddsAndWaits s t := by
  by_cases hi : i.port = .command
  · exact .of_stops (exec_command_grows hi h).2 (exec_command_stops hi h)
  · obtain ⟨m, es, rfl⟩ := exec_window_cases hi h
    exact .of_not_inProgress ⟨_, rfl⟩ hp

/-! ### The statements -/

/-- Settles O50: a command keeps `SameBlock`, and a decode class writes the mode and the outputs only. -/
theorem agentsKeepApart : Obligations.AgentsKeepApart := by
  intro i s t h
  by_cases hi : i.port = .command
  · obtain ⟨⟨hop, hcfg, hparams, hmode, hrequests⟩, -⟩ := exec_command_grows hi h
    exact ⟨hop, hcfg, hparams, hrequests, fun _ => hmode, fun hne => absurd hi hne⟩
  · obtain ⟨m, es, rfl⟩ := exec_window_cases hi h
    exact ⟨rfl, rfl, rfl, rfl, fun hc => absurd hc hi, fun _ => ⟨rfl, rfl, rfl, rfl⟩⟩

/-- Settles O55, by what the step has done: gone on, idled, constructed, or run an instruction. -/
theorem stepOnlyAddsOutputsAndStopsWaiting : Obligations.StepOnlyAddsOutputsAndStopsWaiting := by
  intro s t h
  obtain ⟨-, hresume⟩ | ⟨hp, ⟨-, rfl⟩ | ⟨rom, v, rest, -, rfl⟩ | ⟨w, rest, -, hexec⟩ | ⟨w, rest, -, hexec⟩⟩ :=
    step_eq_next h
  · exact resume_addsAndWaits hresume
  · exact AddsAndWaits.of_not_inProgress ⟨[], by simp⟩ hp
  · exact construct_addsAndWaits rom v { s with requests := rest }
  · exact exec_addsAndWaits (s := { s with requests := rest }) hp hexec
  · exact exec_addsAndWaits (s := { s with requests := rest }) hp hexec

/-- Settles O53: the step's law for each kind of request, with `windowInstr` and `commandInstr` read as `decode`. -/
theorem stepRunsTheDecodedInstruction : Obligations.StepRunsTheDecodedInstruction := by
  intro s rest hp
  exact ⟨fun w hr => step_window hp hr, fun w hr => step_command hp hr, fun hr => step_idle hp hr⟩

end Sys2Proof.Machine

/-! PROOFS of the state statements (spec/10_state.md). Every step keeps the sequencer legal; a waiting transaction goes on
with the next responses as if they had been there at once; a command reads no mode; and what each step leaves of the
configuration. -/

namespace Sys2Proof.Machine

/-! ### What a legal step depends on -/

/-- R174 to R186, R217: a step's primitive is fixed by the ROM, the parameters and the bulk-read registers. -/
theorem primOf_congr {s t : State} (hcfg : t.cfg = s.cfg) (hparams : t.params = s.params) (hbulk : t.bulk = s.bulk)
    (cmd : Instr) (k : Nat) : primOf t cmd k = primOf s cmd k := by
  cases cmd <;> simp only [primOf, hcfg, hparams, hbulk]

theorem stepLegal_congr {s t : State} (hcfg : t.cfg = s.cfg) (hparams : t.params = s.params) (hbulk : t.bulk = s.bulk)
    {cmd : Instr} {k : Nat} (h : stepLegal s cmd k) : stepLegal t cmd k := by
  unfold stepLegal at h ⊢
  rwa [primOf_congr hcfg hparams hbulk, hcfg, hbulk]

/-- Outside a READ_EEPROM the command's checks do not depend on the step it is at. -/
theorem stepLegal_of_isSome {s : State} {cmd : Instr} {j k : Nat} (hne : ∀ m a b p, cmd ≠ .readEeprom m a b p)
    (h : stepLegal s cmd j) (hsome : (primOf s cmd k).isSome = true) : stepLegal s cmd k := by
  obtain ⟨-, hchecks⟩ := h
  refine ⟨hsome, ?_⟩
  cases cmd with
  | readEeprom m a b p => exact absurd rfl (hne m a b p)
  | _ => exact hchecks

/-- The part of `State.Legal` that a running transaction keeps: `seq` is Ready or a legal step. -/
def SeqLegal (s : State) : Prop := ∀ cmd k, s.seq = .step cmd k → stepLegal s cmd k

theorem State.Legal.seqLegal {s : State} (h : s.Legal) (hop : s.op = .operational) : SeqLegal s := h hop

theorem SeqLegal.legal {s : State} (h : SeqLegal s) : s.Legal := fun _ => h

theorem SeqLegal.of_ready {s : State} (h : s.seq = .ready) : SeqLegal s := by
  intro cmd k hstep
  simp [h] at hstep

theorem SeqLegal.of_same {s t : State} (h : SeqLegal s) (hseq : t.seq = s.seq) (hcfg : t.cfg = s.cfg)
    (hparams : t.params = s.params) (hbulk : t.bulk = s.bulk) : SeqLegal t :=
  fun cmd k hstep => stepLegal_congr hcfg hparams hbulk (h cmd k (hseq ▸ hstep))

/-- R21: entering a step is legal if the step, should the command have it, is. -/
theorem enterStep_seqLegal {cmd : Instr} {k : Nat} {s : State}
    (h : (primOf s cmd k).isSome = true → stepLegal s cmd k) : SeqLegal (enterStep cmd k s) := by
  obtain ⟨⟨-, hcfg, hparams, -⟩, -, ⟨p, hprim, hseq, -, hbulk⟩ | ⟨-, hseq, -⟩⟩ := enterStep_spec cmd k s
  · intro cmd' k' hstep
    cases hseq.symm.trans hstep
    exact stepLegal_congr hcfg hparams hbulk (h (by rw [hprim]; rfl))
  · exact .of_ready hseq

theorem endTransaction_seqLegal (r : CmdResult) (s : State) : SeqLegal (endTransaction r s) :=
  .of_ready (endTransaction_spec r s).2.1

/-! ### The bulk-read registers from step to step -/

/-- R210, R212, log 14: the registers that a read-eeprom loads are those of its step 0. -/
theorem bulkLegal_loadBulk {m : Byte} {a b : Word32} (p : Byte) (s : State) (hlt : a.toNat < b.toNat)
    (hlim : b.toNat ≤ Config.eeLimit) : bulkLegal (loadBulk m a b p s).bulk m a b p 0 :=
  ⟨by omega, hlt, hlim, rfl, rfl, rfl, rfl, dvd_zero _, fun _ => rfl, fun _ => hlt, by omega⟩

/-- R217: up to step 5 the next step finds the registers unchanged. -/
theorem bulkLegal_succ {b : BulkRegs} {m : Byte} {start endAddr : Word32} {p : Byte} {k : Nat} (hk : k ≤ 5)
    (h : bulkLegal b m start endAddr p k) : bulkLegal b m start endAddr p (k + 1) := by
  obtain ⟨-, hlt, hlim, hend, hmod, hprog, hcur, hdvd, hempty, hbelow, -⟩ := h
  exact ⟨by omega, hlt, hlim, hend, hmod, hprog, hcur, hdvd, fun _ => hempty (by omega), fun _ => hbelow (by omega),
    by omega⟩

/-- R213: a reply of the right length carries one whole chunk after the echoed address. -/
theorem length_chunk_slice {data : List Byte} (h : data.length = 3 + Config.chunk) :
    (slice data 3 (3 + Config.chunk)).length = Config.chunk := by
  simp [slice, h]

/-- R212, R214: a good chunk keeps the registers legal, for the next request while `cur` is below `end`, and otherwise
for LeaveSub. -/
theorem bulkLegal_acceptChunk {s : State} {data : List Byte} {m : Byte} {start endAddr : Word32} {p : Byte}
    (hlen : data.length = 3 + Config.chunk) (h : bulkLegal s.bulk m start endAddr p 6) :
    bulkLegal (acceptChunk data s).bulk m start endAddr p
      (if (acceptChunk data s).bulk.cur < (acceptChunk data s).bulk.endAddr then 5 else 7) := by
  obtain ⟨-, hlt, hlim, hend, hmod, hprog, hcur, hdvd, -, hbelow, -⟩ := h
  obtain ⟨-, -, -, -, hbulk, -⟩ := acceptChunk_spec data s
  have hacc : (s.bulk.acc ++ slice data 3 (3 + Config.chunk)).length = s.bulk.acc.length + Config.chunk := by
    rw [List.length_append, length_chunk_slice hlen]
  have hcur' : s.bulk.cur + Config.chunk = start.toNat + (s.bulk.acc.length + Config.chunk) := by omega
  have hdvd' : Config.chunk ∣ s.bulk.acc.length + Config.chunk := (Nat.dvd_add_self_right).mpr hdvd
  have hcurEnd : s.bulk.cur < s.bulk.endAddr := hbelow le_rfl
  rw [hbulk]
  dsimp only
  split
  · next hmore =>
    exact ⟨by omega, hlt, hlim, hend, hmod, hprog, hacc ▸ hcur', hacc ▸ hdvd', by omega, fun _ => hmore, by omega⟩
  · next hlast =>
    exact ⟨le_rfl, hlt, hlim, hend, hmod, hprog, hacc ▸ hcur', hacc ▸ hdvd', by omega, by omega,
      fun _ => ⟨not_lt.mp hlast, Nat.add_lt_add_right hcurEnd _⟩⟩

/-! ### The sequencer keeps `SeqLegal` -/

/-- R213, R217: a reply at step 6 raises, or leads to step 5 or 7. -/
theorem receiveChunk_seqLegal {s : State} {m : Byte} {a b : Word32} {p : Byte} (o : Byte) (data : List Byte)
    (h : bulkLegal s.bulk m a b p 6) : SeqLegal (receiveChunk (.readEeprom m a b p) o data s) := by
  unfold receiveChunk
  split
  · exact endTransaction_seqLegal _ s
  · next hcheck =>
    obtain ⟨-, -, hlen⟩ := (checkReply_eq_none_iff _ _ _ _).mp hcheck
    have hnext := bulkLegal_acceptChunk hlen h
    dsimp only
    split
    · next hlt => exact enterStep_seqLegal fun hsome => ⟨hsome, by rwa [if_pos hlt] at hnext⟩
    · next hge => exact enterStep_seqLegal fun hsome => ⟨hsome, by rwa [if_neg hge] at hnext⟩

theorem advanceBulk_seqLegal {s : State} {m : Byte} {a b : Word32} {p : Byte} {k : Nat} (o : Byte) (data : List Byte)
    (h : bulkLegal s.bulk m a b p k) : SeqLegal (advanceBulk (.readEeprom m a b p) k o data s) := by
  unfold advanceBulk
  split
  · exact receiveChunk_seqLegal o data h
  · exact endTransaction_seqLegal _ s
  · next h6 h7 =>
    have hk : k ≤ 5 := by
      have hle : k ≤ 7 := h.1
      rw [imp_false] at h6 h7
      omega
    exact enterStep_seqLegal fun hsome => ⟨hsome, bulkLegal_succ hk h⟩

/-- R21, R217: an Ok response leads from a legal step to a legal step or to the end. -/
theorem advanceOk_seqLegal {s : State} {cmd : Instr} {k : Nat} (o : Byte) (data : List Byte) (h : stepLegal s cmd k) :
    SeqLegal (advanceOk cmd k o data s) := by
  unfold advanceOk
  split
  · exact advanceBulk_seqLegal o data h.2
  · next hne => exact enterStep_seqLegal (stepLegal_of_isSome hne h)

theorem respond_seqLegal (r : Response) {s : State} (h : SeqLegal s) : SeqLegal (respond r s) := by
  cases hs : s.seq with
  | ready => simpa [respond, hs] using h
  | step cmd k =>
    cases r with
    | ok o data =>
      rw [respond_of_ok hs]
      exact advanceOk_seqLegal o data (h cmd k hs)
    | fail kind =>
      rw [respond_of_fail hs]
      exact endTransaction_seqLegal _ s

theorem passDelay_seqLegal {s : State} (h : SeqLegal s) : SeqLegal (passDelay s) := by
  unfold passDelay
  split
  · exact h
  · next cmd k hs =>
    split
    · exact advanceOk_seqLegal _ _ (h cmd k hs)
    · exact h

theorem drain_seqLegal (rs : List Response) {s : State} (h : SeqLegal s) : SeqLegal (drain rs s) :=
  drain_induction SeqLegal (fun r _ => respond_seqLegal r) (fun _ => passDelay_seqLegal)
    (fun _ _ h => h.of_same rfl rfl rfl rfl) rs s h

theorem resume_seqLegal {s t : State} (hs : SeqLegal s) (h : resume s = .next t) : SeqLegal t := by
  obtain ⟨r, rs, -, rfl⟩ | ⟨-, -, rfl⟩ := resume_eq_next h
  · exact drain_seqLegal _ hs
  · exact passDelay_seqLegal hs

/-- R170: a command that has passed its checks starts and runs through legal steps. -/
theorem runCommand_seqLegal {cmd : Instr} {s : State}
    (h : (primOf s cmd 0).isSome = true → stepLegal s cmd 0) : SeqLegal (runCommand cmd s) :=
  drain_seqLegal _ (enterStep_seqLegal h)

/-- A command answers a legal state from any state: its checks and its loaded registers alone make step 0 legal. -/
theorem exec_command_seqLegal {i : Instr} {s t : State} (hi : i.port = .command) (h : exec i s = .next t) :
    SeqLegal t := by
  obtain ⟨e, rfl⟩ | ⟨-, hchecked, rfl⟩ | ⟨m, a, b, p, rfl, rfl, hlt, hlim⟩ := exec_command_cases hi h
  · exact endTransaction_seqLegal _ s
  · exact runCommand_seqLegal (hchecked 0)
  · exact runCommand_seqLegal fun hsome => ⟨hsome, bulkLegal_loadBulk p s hlt hlim⟩

/-! ### One step keeps `State.Legal` -/

theorem exec_legal {i : Instr} {s t : State} (hs : s.Legal) (h : exec i s = .next t) : t.Legal := by
  by_cases hi : i.port = .command
  · exact (exec_command_seqLegal hi h).legal
  · obtain ⟨m, es, rfl⟩ := exec_window_cases hi h
    exact fun hop => (hs.seqLegal hop).of_same rfl rfl rfl rfl

/-- R290, R291: after a construction `seq` is Ready, or the block is not Operational and its `seq` is never read. -/
theorem construct_legal (rom : Rom) (v : Symbol) (s : State) : (construct rom v s).Legal := by
  obtain ⟨-, -, -, -, hseq, -⟩ | ⟨-, hop, -, -⟩ := construct_cases rom v s
  · exact (SeqLegal.of_ready hseq).legal
  · exact fun hoper => by simp [hop] at hoper

/-- Settles O56, by what the step has done; taking a request off the list changes nothing that legality speaks of. -/
theorem stepKeepsSequencerLegal : Obligations.StepKeepsSequencerLegal := by
  intro s t hs h
  have htaken : ∀ rest, State.Legal { s with requests := rest } :=
    fun _ hop => (hs.seqLegal hop).of_same rfl rfl rfl rfl
  obtain ⟨hp, hresume⟩ | ⟨-, ⟨-, rfl⟩ | ⟨rom, v, rest, -, rfl⟩ | ⟨w, rest, -, hexec⟩ | ⟨w, rest, -, hexec⟩⟩ :=
    step_eq_next h
  · obtain ⟨hop, -⟩ := (inProgress_eq_true_iff s).mp hp
    exact (resume_seqLegal (hs.seqLegal hop) hresume).legal
  · exact hs
  · exact construct_legal rom v _
  · exact exec_legal (htaken rest) hexec
  · exact exec_legal (htaken rest) hexec

/-! ### The sequencer under another mode and other responses to come -/

theorem State.setMode_of_eq {s : State} {m : Mode} (h : s.mode = m) : s.setMode m = s := by
  rw [← h]
  rfl

theorem State.overlay_eq_setMode {s : State} {q : List Response} (h : s.responses = q) (m : Mode) :
    s.overlay m q = s.setMode m := by
  rw [← h]
  rfl

/-- Running on given responses reads neither the mode nor the response list in the state, and keeps the mode. -/
theorem drain_overlay (rs : List Response) (m : Mode) :
    ∀ (s : State) (q : List Response), drain rs (s.overlay m q) = (drain rs s).setMode m := by
  induction rs with
  | nil => exact fun _ _ => rfl
  | cons r rs ih =>
    intro s q
    cases hs : s.seq with
    | ready =>
      rw [drain_cons_of_ready hs, drain_cons_of_ready (s := s.overlay m q) hs]
      rfl
    | step cmd k =>
      rw [drain_cons_of_step hs, drain_cons_of_step (s := s.overlay m q) hs, passDelay_overlay, respond_overlay]
      exact ih _ q

theorem drain_mode (rs : List Response) (s : State) : (drain rs s).mode = s.mode := by
  obtain ⟨⟨-, -, -, hmode, -⟩, -⟩ := drain_grows rs s
  exact hmode

theorem drain_forgets_responses (rs q : List Response) (s : State) :
    drain rs { s with responses := q } = drain rs s :=
  calc
    drain rs { s with responses := q } = (drain rs s).setMode s.mode := drain_overlay rs s.mode s q
    _ = drain rs s := State.setMode_of_eq (drain_mode rs s)

/-! ### Two batches of responses -/

/-- R59, log 1: running on two batches together is running on the first and, if that has not ended the transaction, on
the second. -/
theorem drain_append (rs qs : List Response) : ∀ s : State,
    drain (rs ++ qs) s =
      if (drain rs s).seq = .ready then { drain rs s with responses := (drain rs s).responses ++ qs }
      else drain qs (drain rs s) := by
  induction rs with
  | nil =>
    intro s
    rw [List.nil_append, drain_nil, drain_forgets_responses qs [] s]
    split
    · next hready => exact drain_of_ready (s := s) hready qs
    · rfl
  | cons r rs ih =>
    intro s
    cases hs : s.seq with
    | ready =>
      rw [List.cons_append, drain_cons_of_ready hs, drain_cons_of_ready hs, if_pos hs]
      rfl
    | step cmd k =>
      rw [List.cons_append, drain_cons_of_step hs, drain_cons_of_step hs]
      exact ih _

/-- Settles O48: the equations of `drain` at a step, and `drain_append` for the two batches. -/
theorem waitingTransactionGoesOn : Obligations.WaitingTransactionGoesOn := by
  refine ⟨fun s r rs hp hr => ?_, fun s rs hs => drain_of_ready hs rs, drain_nil, fun s r rs hs => ?_, drain_append⟩
  · rw [step_inProgress hp, resume_cons hr]
  · cases hseq : s.seq with
    | ready => exact absurd hseq hs
    | step cmd k => exact drain_cons_of_step hseq r rs

/-! ### A command under another mode -/

theorem enterStep_setMode (cmd : Instr) (k : Nat) (s : State) (m : Mode) :
    enterStep cmd k (s.setMode m) = (enterStep cmd k s).setMode m := by
  obtain ⟨-, hresponses, -⟩ := enterStep_spec cmd k s
  calc
    enterStep cmd k (s.setMode m) = (enterStep cmd k s).overlay m s.responses := enterStep_overlay cmd k s m s.responses
    _ = (enterStep cmd k s).setMode m := State.overlay_eq_setMode hresponses m

theorem raise_setMode (e : CmdError) (s : State) (m : Mode) : raise e (s.setMode m) = (raise e s).setMode m := by
  obtain ⟨-, -, -, hresponses⟩ := endTransaction_spec (.error e) s
  calc
    raise e (s.setMode m) = (raise e s).overlay m s.responses := endTransaction_overlay _ s m s.responses
    _ = (raise e s).setMode m := State.overlay_eq_setMode hresponses m

theorem drain_setMode (rs : List Response) (s : State) (m : Mode) : drain rs (s.setMode m) = (drain rs s).setMode m :=
  drain_overlay rs m s s.responses

theorem runCommand_setMode (cmd : Instr) (s : State) (m : Mode) :
    runCommand cmd (s.setMode m) = (runCommand cmd s).setMode m := by
  unfold runCommand
  rw [enterStep_setMode, drain_setMode, State.setMode_responses]

/-- Under the guard, a state function that commutes with writing the mode does so as a meaning. -/
theorem exec_setMode_of_run {i : Instr} {run : State → State} (hexec : ∀ s, exec i s = whenOperational s run)
    {s t : State} {m : Mode} (hrun : run (s.setMode m) = (run s).setMode m) (h : exec i s = .next t) :
    exec i (s.setMode m) = .next (t.setMode m) := by
  rw [hexec] at h ⊢
  obtain ⟨hop, rfl⟩ := whenOperational_eq_next h
  rw [whenOperational_of_operational (s := s.setMode m) hop, hrun]

/-- A command's check with its two outcomes; the check itself reads no mode. -/
theorem check_setMode {c : Prop} [Decidable c] {m : Mode} {x x' y y' : State} (hx : x' = x.setMode m)
    (hy : y' = y.setMode m) : (if c then x' else y') = (if c then x else y).setMode m := by
  rw [hx, hy, apply_ite (State.setMode · m)]

/-- R31, R170: a command does the same under every mode. -/
theorem exec_command_setMode {i : Instr} {s t : State} (m : Mode) (hi : i.port = .command) (h : exec i s = .next t) :
    exec i (s.setMode m) = .next (t.setMode m) := by
  cases i <;> simp only [Instr.port, reduceCtorEq] at hi
  all_goals refine exec_setMode_of_run (fun _ => rfl) ?_ h
  case enterSub | setChannel | displayText => exact check_setMode (runCommand_setMode _ s m) (raise_setMode _ s m)
  case lampControl lamp f =>
    cases lamp with
    | byId id => exact runCommand_setMode _ s m
    | byName name =>
      dsimp only
      rw [State.setMode_cfg]
      split
      · exact runCommand_setMode _ s m
      · exact raise_setMode _ s m
  case readEeprom md a b p =>
    exact check_setMode (raise_setMode _ s m)
      (check_setMode (raise_setMode _ s m) (runCommand_setMode _ (loadBulk md a b p s) m))
  case illegal => exact raise_setMode _ s m
  all_goals exact runCommand_setMode _ s m

/-- Settles O49: a command keeps `SameBlock`, with the mode in it, and commutes with writing the mode. -/
theorem commandsDoNotReadTheMode : Obligations.CommandsDoNotReadTheMode := by
  intro i s t m hi h
  obtain ⟨⟨-, -, -, hmode, -⟩, -⟩ := exec_command_grows hi h
  exact ⟨hmode, exec_command_setMode m hi h⟩

/-! ### The port of a decoded command word -/

theorem port_decodeText (w : List Byte) (offset n : Byte) (text : List Byte) :
    (decodeText w offset n text).port = .command := by
  unfold decodeText
  split <;> rfl

theorem port_decodeLamp (w : List Byte) (sel : Byte) (args : List Byte) : (decodeLamp w sel args).port = .command := by
  unfold decodeLamp
  split
  · split <;> rfl
  · split
    · split
      · rfl
      · split <;> rfl
    · rfl

theorem port_decodeArgs (w : List Byte) (code : Nat) (args : List Byte) : (decodeArgs w code args).port = .command := by
  unfold decodeArgs
  split
  case h_6 =>
    split
    · exact port_decodeText _ _ _ _
    · rfl
  case h_7 =>
    split
    · exact port_decodeLamp _ _ _
    · rfl
  case h_14 => rfl
  all_goals split <;> rfl

/-- R91, R172: every command word, legal or not, is an instruction of the command port. -/
theorem port_commandInstr (s : State) (w : List Byte) : (commandInstr s w).port = .command := by
  cases w with
  | nil => rfl
  | cons c args => exact port_decodeArgs (c :: args) c.toNat args

/-! ### The configuration -/

/-- R33: a transaction that goes on keeps the registers of `SameBlock`. -/
theorem resume_grows {s t : State} (h : resume s = .next t) : Grows s t := by
  obtain ⟨r, rs, -, rfl⟩ | ⟨-, -, rfl⟩ := resume_eq_next h
  · exact drain_grows _ s
  · exact passDelay_grows s

/-- Settles O54, by what the step has done; the requests that the windows and constructions are taken from name it. -/
theorem onlyConstructionWritesTheConfiguration : Obligations.OnlyConstructionWritesTheConfiguration := by
  intro s t h
  obtain ⟨-, hresume⟩ |
      ⟨hp, ⟨-, rfl⟩ | ⟨rom, v, rest, hr, rfl⟩ | ⟨w, rest, hr, hexec⟩ | ⟨w, rest, -, hexec⟩⟩ := step_eq_next h
  · obtain ⟨⟨hop, hcfg, hparams, hmode, -⟩, -⟩ := resume_grows hresume
    exact ⟨hparams, .inr ⟨hcfg, hop, .inl hmode⟩⟩
  · exact ⟨rfl, .inr ⟨rfl, rfl, .inl rfl⟩⟩
  · exact ⟨(construct_keeps rom v _).1, .inl ⟨rom, v, rest, hp, hr⟩⟩
  · obtain ⟨hop, hcfg, hparams, -⟩ := agentsKeepApart _ _ _ hexec
    exact ⟨hparams, .inr ⟨hcfg, hop, .inr ⟨w, rest, hp, hr⟩⟩⟩
  · obtain ⟨⟨hop, hcfg, hparams, hmode, -⟩, -⟩ := exec_command_grows (port_commandInstr s w) hexec
    exact ⟨hparams, .inr ⟨hcfg, hop, .inl hmode⟩⟩

end Sys2Proof.Machine

/-! PROOFS of the memory statements (spec/20_memory.md). A byte put below a bit vector is the next digit in base 256, which
gives a 4-byte field its value; an address below 2^24 is the three digits that `addr3` writes. -/

namespace Sys2Proof.Machine

/-- R89: a byte put below a bit vector is the last digit of its value in base 256. -/
theorem toNat_append_byte {n : Nat} (x : BitVec n) (b : Byte) : (x ++ b).toNat = x.toNat * 256 + b.toNat := by
  rw [BitVec.toNat_append, ← Nat.shiftLeft_add_eq_or_of_lt b.isLt, Nat.shiftLeft_eq]

/-- R89: the value of a 4-byte field, one byte after the other. -/
theorem toNat_be32 (b3 b2 b1 b0 : Byte) :
    (be32 b3 b2 b1 b0).toNat = b3.toNat * 16777216 + b2.toNat * 65536 + b1.toNat * 256 + b0.toNat := by
  calc
    (be32 b3 b2 b1 b0).toNat = ((b3.toNat * 256 + b2.toNat) * 256 + b1.toNat) * 256 + b0.toNat := by
      unfold be32
      rw [toNat_append_byte, toNat_append_byte, toNat_append_byte]
    _ = b3.toNat * 16777216 + b2.toNat * 65536 + b1.toNat * 256 + b0.toNat := by omega

/-- R53: below 2^24 nothing of an address is lost in the three bytes of `addr3`. -/
theorem addr3_value {a : Nat} (h : a < 2 ^ 24) :
    a = (BitVec.ofNat 8 (a / 0x10000)).toNat * 65536 + (BitVec.ofNat 8 (a / 0x100)).toNat * 256 +
      (BitVec.ofNat 8 a).toNat := by
  simp only [BitVec.toNat_ofNat]
  omega

/-- Settles O7: `addr3_value` for the three bytes that `addr3` writes, and `toNat_be32`. -/
theorem multiByteFieldsAreBigEndian : Obligations.MultiByteFieldsAreBigEndian :=
  ⟨fun _ h => ⟨_, _, _, rfl, addr3_value h⟩, toNat_be32⟩

end Sys2Proof.Machine

/-! PROOFS of the encoding statements (spec/30_encoding.md), decoder and encoder. An outer pair of a reachable row
selects that row's class; an SBEP header that the encoder writes announces its payload; a command word is of one of the
layouts of R90, or it is no legal word and decodes as ILLEGAL. -/

namespace Sys2Proof

/-! ### Outer windows -/

/-- R111: the class of the outer decode map's row `n`; row 1 is both BUTTON and KNOB. -/
def outerClass (rom : Rom) (p1 p2 : Byte) (n : Nat) : Instr :=
  match n with
  | 0 => .decEnterSbep p1 p2
  | 1 => if rom.isKnobCode p1 then .decKnob p1 p2 else .decButton p1 p2
  | 2 => .decBacklight p1 p2
  | 3 => .decAudioMute p1 p2
  | 4 => .decChanSelect p1 p2
  | _ => .decChanAck p1 p2

/-- R94: a pair of some row has a reachable row, the first one it stands in. -/
theorem exists_reachable_row {rom : Rom} {pair : Byte × Byte} (h : pair ∈ rom.outerRows) :
    ∃ n, rom.rowReachable n = true ∧ rom.outerRows[n]? = some pair := by
  have hrow : rom.outerRows[rom.outerRows.idxOf pair]? = some pair := List.getElem?_idxOf h
  have hfirst : pair ∉ rom.outerRows.take (rom.outerRows.idxOf pair) := by
    rw [List.mem_take_iff_idxOf_lt h]
    exact lt_irrefl _
  exact ⟨_, by simpa [Rom.rowReachable, hrow] using hfirst, hrow⟩

/-- R111: the rows are tried in their order, and each selects its class. -/
theorem selectOuter_eq (rom : Rom) (a p1 p2 f : Byte) :
    selectOuter rom a p1 p2 f =
      if a = Config.broadcastAddr ∧ f = Config.enterSbepFn then outerClass rom p1 p2 0
      else if a = rom.fpAddr ∧ f = rom.fnButton then outerClass rom p1 p2 1
      else if a = rom.fpAddr ∧ f = rom.fnBacklight then outerClass rom p1 p2 2
      else if a = rom.radioAddr ∧ f = rom.fnAudioMute then outerClass rom p1 p2 3
      else if a = rom.radioAddr ∧ f = rom.fnChanSelect then outerClass rom p1 p2 4
      else if a = rom.radioAddr ∧ f = rom.fnChanAck then outerClass rom p1 p2 5
      else .decOuterOther (some a) (some p1) (some p2) (some f) := by
  cases hl : rom.buttonTable.lookup p1 with
  | none => simp only [selectOuter, outerClass, Rom.isKnobCode, hl, Bool.false_eq_true, if_false]
  | some e => simp only [selectOuter, outerClass, Rom.isKnobCode, hl, decide_eq_true_eq]

/-- R111: a reachable row's pair passes the rows before it and selects the row's class. -/
theorem selectOuter_of_row {rom : Rom} {n : Nat} {a f : Byte} (hr : rom.rowReachable n = true)
    (hp : rom.outerRows[n]? = some (a, f)) (p1 p2 : Byte) :
    selectOuter rom a p1 p2 f = outerClass rom p1 p2 n := by
  have hfirst := rowReachable_spec hr hp
  rw [selectOuter_eq]
  match n with
  | 0 | 1 | 2 | 3 | 4 | 5 =>
    cases hp
    simp only [Rom.outerRows, List.take_succ_cons, List.take_zero, List.mem_cons, List.not_mem_nil, Prod.mk.injEq,
      or_false, not_or] at hfirst
    simp only [hfirst, and_self, if_true, if_false]
  | n + 6 => simp [Rom.outerRows] at hp

/-- R95, R111: an outer frame of four bytes is of a reachable row's class or OUTER_OTHER. -/
theorem selectOuter_wf (rom : Rom) (ps : Params) (a p1 p2 f : Byte) :
    (selectOuter rom a p1 p2 f).wf rom ps = true ∧ (selectOuter rom a p1 p2 f).port = .outer := by
  by_cases h : (a, f) ∈ rom.outerRows
  · obtain ⟨n, hr, hp⟩ := exists_reachable_row h
    rw [selectOuter_of_row hr hp]
    match n with
    | 1 => cases hk : rom.isKnobCode p1 <;> simp [outerClass, Instr.wf, Instr.port, hr, hk]
    | 0 => exact ⟨rfl, rfl⟩
    | 2 | 3 | 4 | 5 => exact ⟨hr, rfl⟩
    | n + 6 => simp [Rom.outerRows] at hp
  · rw [selectOuter_of_not_mem h]
    simp [Instr.wf, Instr.port, h]

/-- R71, R95: every outer window is of a well-formed outer class; one of fewer than four bytes is OUTER_OTHER. -/
theorem decodeOuter_wf (rom : Rom) (ps : Params) (w : List Byte) :
    (decodeOuter rom w).wf rom ps = true ∧ (decodeOuter rom w).port = .outer :=
  match w with
  | [] | [_] | [_, _] | [_, _, _] => ⟨rfl, rfl⟩
  | a :: p1 :: p2 :: f :: _ => selectOuter_wf rom ps a p1 p2 f

/-- R71, R119: the frame of four optional fields is decoded back to them. A field present after an absent one is not
well-formed, which leaves these five shapes. -/
theorem decodeOuter_optionalFrame {rom : Rom} {ps : Params} {a p1 p2 f : Option Byte}
    (h : (Instr.decOuterOther a p1 p2 f).wf rom ps = true) :
    decodeOuter rom (optionalFrame a p1 p2 f) = .decOuterOther a p1 p2 f :=
  match a, p1, p2, f with
  | none, none, none, none => rfl
  | some _, none, none, none => rfl
  | some _, some _, none, none => rfl
  | some _, some _, some _, none => rfl
  | some a, some p1, some p2, some f => selectOuter_of_not_mem (by simpa [Instr.wf] using h) p1 p2

/-- R70, R111: the frame of a well-formed outer class decodes to it. -/
theorem decodeOuter_encode {rom : Rom} {ps : Params} {i : Instr} (hport : i.port = .outer)
    (hwf : i.wf rom ps = true) : decodeOuter rom (encode rom ps i) = i := by
  cases i <;> simp only [Instr.port, reduceCtorEq] at hport
  case decEnterSbep p1 p2 => exact selectOuter_of_row (n := 0) rfl rfl p1 p2
  case decButton p1 p2 =>
    simp only [Instr.wf, Bool.and_eq_true, Bool.not_eq_true'] at hwf
    obtain ⟨hrow, hkind⟩ := hwf
    exact (selectOuter_of_row hrow rfl p1 p2).trans (by simp [outerClass, hkind])
  case decKnob p1 p2 =>
    simp only [Instr.wf, Bool.and_eq_true] at hwf
    obtain ⟨hrow, hkind⟩ := hwf
    exact (selectOuter_of_row hrow rfl p1 p2).trans (by simp [outerClass, hkind])
  case decBacklight p1 p2 => exact selectOuter_of_row (n := 2) hwf rfl p1 p2
  case decAudioMute p1 p2 => exact selectOuter_of_row (n := 3) hwf rfl p1 p2
  case decChanSelect p1 p2 => exact selectOuter_of_row (n := 4) hwf rfl p1 p2
  case decChanAck p1 p2 => exact selectOuter_of_row (n := 5) hwf rfl p1 p2
  case decOuterOther a p1 p2 f => exact decodeOuter_optionalFrame hwf

/-! ### SBEP windows -/

/-- R141: a window is SB_OTHER's exactly when rows 1 and 2 miss it: the address is not the row's, or the byte that the
row needs is absent. -/
theorem decSbOther_wf_iff (rom : Rom) (ps : Params) (w : List Byte) :
    (Instr.decSbOther w).wf rom ps = true ↔
      (opt w 0 = some rom.sbTextAddr → opt w 1 = none) ∧ (opt w 0 = some rom.sbIconAddr → opt w 4 = none) := by
  simp [Instr.wf, opt, List.head?_eq_getElem?, Nat.succ_le_iff, imp_iff_not_or]

/-- R141: a window that SB_OTHER is well-formed for falls through both rows. -/
theorem decodeSbep_of_other {rom : Rom} {ps : Params} {w : List Byte}
    (h : (Instr.decSbOther w).wf rom ps = true) : decodeSbep rom ps w = .decSbOther w := by
  obtain ⟨htext, hicon⟩ := (decSbOther_wf_iff rom ps w).mp h
  unfold decodeSbep
  split
  · rfl
  · next sa hsa =>
    have hnot : opt w 0 ≠ some rom.sbTextAddr := fun h0 => absurd (htext h0) (by simp [hsa])
    rw [if_neg hnot]
    split
    · next h0 => rw [hicon h0]
    · rfl

/-- R95, R141: every SBEP window is of a well-formed SBEP class. -/
theorem decodeSbep_wf (rom : Rom) (ps : Params) (w : List Byte) :
    (decodeSbep rom ps w).wf rom ps = true ∧ (decodeSbep rom ps w).port = .sbep := by
  unfold decodeSbep
  split
  · next hsa =>
    refine ⟨(decSbOther_wf_iff rom ps w).mpr ⟨fun _ => hsa, fun _ => ?_⟩, rfl⟩
    simp only [opt, List.getElem?_eq_none_iff] at hsa ⊢
    omega
  · split
    · exact ⟨decide_eq_true (payload_length_le ps w), rfl⟩
    · next htext =>
      split
      · next hicon =>
        have hne : rom.sbIconAddr ≠ rom.sbTextAddr := fun heq => htext (heq ▸ hicon)
        split
        · exact ⟨decide_eq_true hne, rfl⟩
        · next hop => exact ⟨(decSbOther_wf_iff rom ps w).mpr ⟨fun h => absurd h htext, fun _ => hop⟩, rfl⟩
      · next hicon =>
        exact ⟨(decSbOther_wf_iff rom ps w).mpr ⟨fun h => absurd h htext, fun h => absurd h hicon⟩, rfl⟩

/-- R75: the payload behind a header that the encoder writes is the payload it was written for. -/
theorem payload_of_header {ps : Params} {p : List Byte} (h : p.length ≤ ps.maxPayload) (a sa b3 b4 : Byte) :
    payload ps ([a, sa, headerLength ps p.length, b3, b4] ++ p) = p := by
  have hstop : payloadStop ps (bodyLenOpt (some (headerLength ps p.length))) = 5 + p.length :=
    bodyLen_headerLength ps p.length h
  calc
    payload ps ([a, sa, headerLength ps p.length, b3, b4] ++ p)
      = slice ([a, sa, headerLength ps p.length, b3, b4] ++ p) 5 (5 + p.length) := congrArg _ hstop
    _ = p := by simp [slice, Nat.add_comm 5]

/-- R72, R141: the window of a well-formed SBEP class decodes to it. -/
theorem decodeSbep_encode {rom : Rom} {ps : Params} {i : Instr} (hport : i.port = .sbep)
    (hwf : i.wf rom ps = true) : decodeSbep rom ps (encode rom ps i) = i := by
  cases i <;> simp only [Instr.port, reduceCtorEq] at hport
  case decSbText sa p =>
    have hp : p.length ≤ ps.maxPayload := of_decide_eq_true hwf
    exact (if_pos rfl).trans (congrArg (Instr.decSbText sa) (payload_of_header hp rom.sbTextAddr sa 0x00 0x00))
  case decSbIcon sa op =>
    have hne : rom.sbIconAddr ≠ rom.sbTextAddr := of_decide_eq_true hwf
    simp [decodeSbep, encode, opt, hne]
  case decSbOther w => exact decodeSbep_of_other hwf

/-! ### Command words -/

/-- R90: the layouts, each with the command that a word of the layout stands for. -/
inductive CommandLayout : List Byte → Instr → Prop where
  | enterScan : CommandLayout [0x01] .enterScan
  | reset : CommandLayout [0x02] .reset
  | enterSub (m : Byte) : CommandLayout [0x03, m] (.enterSub m)
  | setChannel (b3 b2 b1 b0 : Byte) : CommandLayout [0x04, b3, b2, b1, b0] (.setChannel (be32 b3 b2 b1 b0))
  | sendButton (code val : Byte) : CommandLayout [0x05, code, val] (.sendButton code val)
  | displayText (offset n : Byte) (text : List Byte) (hlen : text.length = n.toNat) (hascii : text.all isAscii = true) :
      CommandLayout (0x06 :: offset :: n :: text) (.displayText offset text)
  | lampId (id fn : Byte) : CommandLayout [0x07, 0x00, id, fn] (.lampControl (.byId id) fn)
  | lampName (n fn : Byte) (name : List Byte) (hlen : name.length = n.toNat) :
      CommandLayout (0x07 :: 0x01 :: n :: (name ++ [fn])) (.lampControl (.byName name) fn)
  | illumLevel (id level : Byte) : CommandLayout [0x08, id, level] (.illumLevel id level)
  | genericEvent (id b3 b2 b1 b0 : Byte) :
      CommandLayout [0x09, id, b3, b2, b1, b0] (.genericEvent id (be32 b3 b2 b1 b0))
  | audioEnable (flag : Byte) : CommandLayout [0x0A, flag] (.audioEnable flag)
  | setRxFreq (b3 b2 b1 b0 : Byte) : CommandLayout [0x0B, b3, b2, b1, b0] (.setRxFreq (be32 b3 b2 b1 b0))
  | setTxFreq (b3 b2 b1 b0 : Byte) : CommandLayout [0x0C, b3, b2, b1, b0] (.setTxFreq (be32 b3 b2 b1 b0))
  | readEeprom (m s3 s2 s1 s0 e3 e2 e1 e0 progress : Byte) :
      CommandLayout [0x0D, m, s3, s2, s1, s0, e3, e2, e1, e0, progress]
        (.readEeprom m (be32 s3 s2 s1 s0) (be32 e3 e2 e1 e0) progress)

/-- R90, R172: a word of a layout decodes to the layout's command. -/
theorem CommandLayout.decodeCommand_eq {w : List Byte} {i : Instr} (h : CommandLayout w i) : decodeCommand w = i := by
  cases h with
  | displayText offset n text hlen hascii => exact if_pos ⟨hlen, hascii⟩
  | lampName n fn name hlen => simp [decodeCommand, decodeArgs, decodeLamp, hlen]
  | _ => rfl

/-- R89, R90: the command of a word encodes to the word. -/
theorem CommandLayout.encode_eq {w : List Byte} {i : Instr} (h : CommandLayout w i) (rom : Rom) (ps : Params) :
    encode rom ps i = w := by
  cases h with
  | displayText offset n text hlen hascii => simp [encode, hlen]
  | lampName n fn name hlen => simp [encode, hlen]
  | setChannel | genericEvent | setRxFreq | setTxFreq | readEeprom => simp [encode, bytes32_be32]
  | _ => rfl

/-- R90: the counted fields of a word are at most 255 bytes, whatever the count byte. -/
theorem CommandLayout.wf {w : List Byte} {i : Instr} (h : CommandLayout w i) (rom : Rom) (ps : Params) :
    i.wf rom ps = true := by
  cases h with
  | displayText offset n text hlen hascii =>
    have hn : text.length ≤ 255 := by have := n.isLt; omega
    simp [Instr.wf, hn, hascii]
  | lampName n fn name hlen =>
    have hn : name.length ≤ 255 := by have := n.isLt; omega
    simp [Instr.wf, hn]
  | _ => rfl

/-- R91: a word of a layout is legal. -/
theorem CommandLayout.legalWord_eq {w : List Byte} {i : Instr} (h : CommandLayout w i) : legalWord w = true := by
  cases h with
  | displayText offset n text hlen hascii => simp [legalWord, wordLength, hlen, hascii, Nat.add_comm 3]
  | lampName n fn name hlen => simp [legalWord, wordLength, hlen, Nat.add_comm 4]
  | _ => rfl

/-- R89: a 4-byte field is put together from its bytes. -/
theorem exists_be32 (v : Word32) : ∃ b3 b2 b1 b0 : Byte, v = be32 b3 b2 b1 b0 :=
  ⟨_, _, _, _, (be32_of_bytes v).symm⟩

/-- R89, R90: every well-formed command that is not ILLEGAL has a word. -/
theorem exists_word_of_command {rom : Rom} {ps : Params} {i : Instr} (hport : i.port = .command)
    (hwf : i.wf rom ps = true) (hlegal : ∀ w, i ≠ .illegal w) : ∃ w, CommandLayout w i := by
  cases i <;> simp only [Instr.port, reduceCtorEq] at hport
  case enterScan => exact ⟨_, .enterScan⟩
  case reset => exact ⟨_, .reset⟩
  case enterSub m => exact ⟨_, .enterSub m⟩
  case setChannel ch =>
    obtain ⟨b3, b2, b1, b0, rfl⟩ := exists_be32 ch
    exact ⟨_, .setChannel b3 b2 b1 b0⟩
  case sendButton code val => exact ⟨_, .sendButton code val⟩
  case displayText offset text =>
    simp only [Instr.wf, Bool.and_eq_true, decide_eq_true_eq] at hwf
    obtain ⟨hlen, hascii⟩ := hwf
    exact ⟨_, .displayText offset (BitVec.ofNat 8 text.length) text (by rw [BitVec.toNat_ofNat]; omega) hascii⟩
  case lampControl lamp fn =>
    cases lamp with
    | byId id => exact ⟨_, .lampId id fn⟩
    | byName name =>
      have hlen : name.length ≤ 255 := by simpa [Instr.wf] using hwf
      exact ⟨_, .lampName (BitVec.ofNat 8 name.length) fn name (by rw [BitVec.toNat_ofNat]; omega)⟩
  case illumLevel id level => exact ⟨_, .illumLevel id level⟩
  case genericEvent id value =>
    obtain ⟨b3, b2, b1, b0, rfl⟩ := exists_be32 value
    exact ⟨_, .genericEvent id b3 b2 b1 b0⟩
  case audioEnable flag => exact ⟨_, .audioEnable flag⟩
  case setRxFreq hz =>
    obtain ⟨b3, b2, b1, b0, rfl⟩ := exists_be32 hz
    exact ⟨_, .setRxFreq b3 b2 b1 b0⟩
  case setTxFreq hz =>
    obtain ⟨b3, b2, b1, b0, rfl⟩ := exists_be32 hz
    exact ⟨_, .setTxFreq b3 b2 b1 b0⟩
  case readEeprom m start endAddr progress =>
    obtain ⟨s3, s2, s1, s0, rfl⟩ := exists_be32 start
    obtain ⟨e3, e2, e1, e0, rfl⟩ := exists_be32 endAddr
    exact ⟨_, .readEeprom m s3 s2 s1 s0 e3 e2 e1 e0 progress⟩
  case illegal w => exact absurd rfl (hlegal w)

/-- The byte of a layout's code. -/
theorem eq_ofNat_of_toNat_eq {c : Byte} {n : Nat} (h : c.toNat = n) : c = BitVec.ofNat 8 n := by
  rw [← h, BitVec.ofNat_toNat, BitVec.setWidth_eq]

/-- R90, code 0x06. -/
theorem decodeText_cases (offset n : Byte) (text : List Byte) :
    CommandLayout (0x06 :: offset :: n :: text) (decodeText (0x06 :: offset :: n :: text) offset n text) ∨
      decodeText (0x06 :: offset :: n :: text) offset n text = .illegal (0x06 :: offset :: n :: text) := by
  unfold decodeText
  split
  · next h =>
    obtain ⟨hlen, hascii⟩ := h
    exact .inl (.displayText offset n text hlen hascii)
  · exact .inr rfl

/-- R90, code 0x07: a name's bytes and the function byte after them. -/
theorem exists_concat {bs : List Byte} {n : Nat} (h : bs.length = n + 1) :
    ∃ name fn, bs = name ++ [fn] ∧ name.length = n := by
  cases bs using List.reverseRecOn with
  | nil => simp at h
  | append_singleton name fn => exact ⟨name, fn, rfl, by simpa using h⟩

/-- R90, code 0x07. -/
theorem decodeLamp_cases (sel : Byte) (args : List Byte) :
    CommandLayout (0x07 :: sel :: args) (decodeLamp (0x07 :: sel :: args) sel args) ∨
      decodeLamp (0x07 :: sel :: args) sel args = .illegal (0x07 :: sel :: args) := by
  unfold decodeLamp
  split
  · next hsel =>
    subst hsel
    split
    · exact .inl (.lampId _ _)
    · exact .inr rfl
  · split
    · next hsel =>
      subst hsel
      split
      · exact .inr rfl
      · next n rest =>
        split
        · next hlen =>
          refine .inl ?_
          obtain ⟨name, fn, rfl, hname⟩ := exists_concat hlen
          simpa [← hname] using CommandLayout.lampName n fn name hname
        · exact .inr rfl
    · exact .inr rfl

/-- R90, R91, R172: a command word is of a layout and decodes to the layout's command, or decodes as ILLEGAL. -/
theorem decodeCommand_cases (w : List Byte) :
    CommandLayout w (decodeCommand w) ∨ decodeCommand w = .illegal w := by
  match w with
  | [] => exact .inr rfl
  | c :: args =>
    unfold decodeCommand decodeArgs
    dsimp only
    split
    case h_14 => exact .inr rfl
    all_goals
      rename_i hc
      obtain rfl := eq_ofNat_of_toNat_eq hc
    case h_6 =>
      split
      · exact decodeText_cases _ _ _
      · exact .inr rfl
    case h_7 =>
      split
      · exact decodeLamp_cases _ _
      · exact .inr rfl
    all_goals
      split
      · exact .inl (by constructor)
      · exact .inr rfl

/-- R90, code 0x06: the count byte gives the number of text bytes. -/
theorem exists_textLayout {args : List Byte} (hlen : wordLength (0x06 :: args) = some (args.length + 1))
    (hascii : (args.drop 2).all isAscii = true) : ∃ i, CommandLayout (0x06 :: args) i := by
  match args with
  | [] | [_] => simp [wordLength] at hlen
  | offset :: n :: text =>
    have htext : text.length = n.toNat := by simp [wordLength] at hlen; omega
    exact ⟨_, .displayText offset n text htext hascii⟩

/-- R90, code 0x07: the selector, and for a name its count byte. -/
theorem exists_lampLayout {args : List Byte} (hlen : wordLength (0x07 :: args) = some (args.length + 1)) :
    ∃ i, CommandLayout (0x07 :: args) i := by
  match args with
  | [] => simp [wordLength] at hlen
  | sel :: rest =>
    by_cases hid : sel = 0x00
    · subst hid
      match rest, hlen with
      | [id, fn], _ => exact ⟨_, .lampId id fn⟩
    by_cases hname : sel = 0x01
    · subst hname
      match rest with
      | [] => simp [wordLength] at hlen
      | n :: rest =>
        have hrest : rest.length = n.toNat + 1 := by simp [wordLength] at hlen; omega
        obtain ⟨name, fn, rfl, hcount⟩ := exists_concat hrest
        exact ⟨_, .lampName n fn name hcount⟩
    · have hnone : wordLength (0x07 :: sel :: rest) = none := (if_neg hid).trans (if_neg hname)
      cases hnone.symm.trans hlen

/-- R90, R91: a legal word is of a layout, because its code and its length leave that layout's bytes only. -/
theorem exists_commandLayout {w : List Byte} (h : legalWord w = true) : ∃ i, CommandLayout w i := by
  simp only [legalWord, Bool.and_eq_true, decide_eq_true_eq] at h
  obtain ⟨hlen, hascii⟩ := h
  match w with
  | [] => simp [wordLength] at hlen
  | c :: args =>
    unfold wordLength at hlen
    dsimp only at hlen
    split at hlen
    case h_14 => cases hlen
    all_goals
      rename_i hc
      obtain rfl := eq_ofNat_of_toNat_eq hc
    case h_1 =>
      match args, hlen with
      | [], _ => exact ⟨_, .enterScan⟩
    case h_2 =>
      match args, hlen with
      | [], _ => exact ⟨_, .reset⟩
    case h_3 =>
      match args, hlen with
      | [m], _ => exact ⟨_, .enterSub m⟩
    case h_4 =>
      match args, hlen with
      | [b3, b2, b1, b0], _ => exact ⟨_, .setChannel b3 b2 b1 b0⟩
    case h_5 =>
      match args, hlen with
      | [code, val], _ => exact ⟨_, .sendButton code val⟩
    case h_8 =>
      match args, hlen with
      | [id, level], _ => exact ⟨_, .illumLevel id level⟩
    case h_9 =>
      match args, hlen with
      | [id, b3, b2, b1, b0], _ => exact ⟨_, .genericEvent id b3 b2 b1 b0⟩
    case h_10 =>
      match args, hlen with
      | [flag], _ => exact ⟨_, .audioEnable flag⟩
    case h_11 =>
      match args, hlen with
      | [b3, b2, b1, b0], _ => exact ⟨_, .setRxFreq b3 b2 b1 b0⟩
    case h_12 =>
      match args, hlen with
      | [b3, b2, b1, b0], _ => exact ⟨_, .setTxFreq b3 b2 b1 b0⟩
    case h_13 =>
      match args, hlen with
      | [m, s3, s2, s1, s0, e3, e2, e1, e0, progress], _ =>
        exact ⟨_, .readEeprom m s3 s2 s1 s0 e3 e2 e1 e0 progress⟩
    case h_6 => exact exists_textLayout hlen (by simpa using hascii)
    case h_7 => exact exists_lampLayout hlen

/-- R91, R172: a word that matches no layout decodes as ILLEGAL. -/
theorem decodeCommand_of_not_legal {w : List Byte} (h : legalWord w = false) : decodeCommand w = .illegal w := by
  obtain hlayout | hillegal := decodeCommand_cases w
  · exact absurd hlayout.legalWord_eq (by simp [h])
  · exact hillegal

/-- R91, R95: every command word is a well-formed command. -/
theorem decodeCommand_wf (rom : Rom) (ps : Params) (w : List Byte) :
    (decodeCommand w).wf rom ps = true ∧ (decodeCommand w).port = .command := by
  refine ⟨?_, ?_⟩
  · cases hl : legalWord w with
    | true =>
      obtain ⟨i, hi⟩ := exists_commandLayout hl
      rw [hi.decodeCommand_eq]
      exact hi.wf rom ps
    | false =>
      rw [decodeCommand_of_not_legal hl]
      simp [Instr.wf, hl]
  · cases w with
    | nil => rfl
    | cons c args => exact Machine.port_decodeArgs (c :: args) c.toNat args

/-- R89, R90, R91: the word of a well-formed command decodes to it. -/
theorem decodeCommand_encode {rom : Rom} {ps : Params} {i : Instr} (hport : i.port = .command)
    (hwf : i.wf rom ps = true) : decodeCommand (encode rom ps i) = i := by
  by_cases hlegal : ∃ w, i = .illegal w
  · obtain ⟨w, rfl⟩ := hlegal
    have hl : legalWord w = false := by simpa [Instr.wf] using hwf
    exact decodeCommand_of_not_legal hl
  · obtain ⟨w, hw⟩ := exists_word_of_command hport hwf (not_exists.mp hlegal)
    rw [hw.encode_eq rom ps, hw.decodeCommand_eq]

/-! ### The statements -/

/-- Settles O1, port by port. -/
theorem decodeInvertsEncode : Obligations.DecodeInvertsEncode := by
  intro rom ps i hwf
  cases hport : i.port with
  | outer => exact decodeOuter_encode hport hwf
  | sbep => exact decodeSbep_encode hport hwf
  | command => exact decodeCommand_encode hport hwf

/-- Settles O2: a legal word is the one its layout gives the command, and ILLEGAL holds its word. -/
theorem encodeInvertsCommandDecode : Obligations.EncodeInvertsCommandDecode := by
  intro rom ps w
  obtain hlayout | hillegal := decodeCommand_cases w
  · exact hlayout.encode_eq rom ps
  · rw [hillegal]
    rfl

/-- Settles O3, port by port. -/
theorem everyDecodedInstructionIsWellFormed : Obligations.EveryDecodedInstructionIsWellFormed := by
  intro rom ps port w
  cases port with
  | outer => exact decodeOuter_wf rom ps w
  | sbep => exact decodeSbep_wf rom ps w
  | command => exact decodeCommand_wf rom ps w

/-- Settles O36: no layout of R90 is matched; with `seq` Ready the raise only reports. -/
theorem illegalCommandWord : Obligations.IllegalCommandWord := by
  refine ⟨fun _ _ h => decodeCommand_of_not_legal h, fun s w hop hseq => ?_⟩
  exact (Machine.whenOperational_of_operational hop _).trans
    (congrArg _ (Machine.endTransaction_of_ready hseq _))

/-- Settles O4: each word is evaluated. -/
theorem specWordsDecode : Obligations.SpecWordsDecode := by
  unfold Obligations.SpecWordsDecode
  decide

end Sys2Proof

/-! PROOFS of the encoding statements (spec/30_encoding.md), the values: SBEP lengths, icon states, texts and softkey
labels. The NUL strip and the setter's trim are each `List.rdropWhile`. -/

namespace Sys2Proof.Machine

/-! ### SBEP lengths -/

theorem bodyLen_le (L : Byte) : bodyLen L ≤ 253 := by
  have hL := L.isLt
  rw [bodyLen_eq]
  split <;> omega

theorem payload_relative {ps : Params} (h : ps.payloadEnd = .relative) (w : List Byte) :
    payload ps w = (w.take (5 + bodyLenOpt w[2]?)).drop 5 := by
  simp only [payload, payloadStop, h, slice, opt, Config.sbepHdrLen]

theorem payload_absolute {ps : Params} (h : ps.payloadEnd = .absolute) (w : List Byte) :
    payload ps w = (w.take (bodyLenOpt w[2]?)).drop 5 := by
  simp only [payload, payloadStop, h, slice, opt, Config.sbepHdrLen]

/-- Settles O6: `bodyLen_eq` for the lengths, and the payload under each reading of its end. -/
theorem bodyLengthAndPayload : Obligations.BodyLengthAndPayload := by
  refine ⟨fun L => ⟨bodyLen_eq L, bodyLen_le L⟩, rfl, rfl, rfl, rfl, fun ps w =>
    ⟨fun h => ⟨payload_relative h w, ?_⟩, fun h => payload_absolute h w⟩⟩
  rw [payload_relative h, List.length_drop, List.length_take]
  omega

/-! ### Icon states -/

theorem ofNat_digitChar : ∀ d < 10, BitVec.ofNat 8 d.digitChar.toNat = BitVec.ofNat 8 (0x30 + d) := by decide

theorem charBytes_toDigits_of_lt {n : Nat} (h : n < 10) :
    charBytes (Nat.toDigits 10 n) = [BitVec.ofNat 8 (0x30 + n)] := by
  rw [Nat.toDigits_of_lt_base h, charBytes, List.map_singleton, ofNat_digitChar n h]

/-- The last digit of a decimal numeral stands after the numeral of the tens. -/
theorem charBytes_toDigits_of_le {n : Nat} (h : 10 ≤ n) :
    charBytes (Nat.toDigits 10 n) = charBytes (Nat.toDigits 10 (n / 10)) ++ [BitVec.ofNat 8 (0x30 + n % 10)] := by
  rw [Nat.toDigits_of_base_le (by omega) h, charBytes, charBytes, List.map_append, List.map_singleton,
    ofNat_digitChar _ (by omega)]

/-- R81: the text of a raw state is its decimal numeral, of one, two or three digits. -/
theorem rawText_eq (n : Byte) : rawText n = charBytes (Nat.toDigits 10 n.toNat) := by
  have hn := n.isLt
  unfold rawText
  dsimp only
  split
  · rw [charBytes_toDigits_of_lt ‹_›]
  · split
    · rw [charBytes_toDigits_of_le (by omega), charBytes_toDigits_of_lt (by omega)]
      rfl
    · rw [charBytes_toDigits_of_le (by omega), charBytes_toDigits_of_le (by omega),
        charBytes_toDigits_of_lt (by omega), Nat.div_div_eq_div_mul]
      rfl

/-- Settles O11: the four named opcodes compute, and every other one passes their tests. -/
theorem iconStateOfEveryOpcode : Obligations.IconStateOfEveryOpcode := by
  refine ⟨rfl, rfl, rfl, rfl, fun op h0 h1 h2 hFE => ?_, rawText_eq⟩
  rw [iconState, if_neg h0, if_neg (not_or.mpr ⟨h1, h2⟩), if_neg hFE]

/-! ### Texts -/

/-- A function on texts is `List.rdropWhile p` if before a text it keeps each byte, except one that is to be dropped and
has nothing kept after it. -/
theorem eq_rdropWhile_of_cons {f : List Byte → List Byte} {p : Byte → Bool} (hnil : f [] = [])
    (hcons : ∀ b bs, f (b :: bs) = if f bs = [] then (if p b then [] else [b]) else b :: f bs) (t : List Byte) :
    f t = t.rdropWhile p := by
  induction t with
  | nil => exact hnil
  | cons b bs ih =>
    rw [hcons, ih, List.rdropWhile, List.rdropWhile, List.reverse_cons, List.dropWhile_append]
    simp only [List.isEmpty_iff, List.reverse_eq_nil_iff]
    split
    · rw [List.dropWhile_cons, List.dropWhile_nil, apply_ite List.reverse]
      rfl
    · exact List.reverse_concat.symm

/-- R82: `text(p)` is without its trailing run of 0x00 bytes. -/
theorem stripNul_eq_rdropWhile (p : List Byte) : stripNul p = p.rdropWhile (· = 0x00) := by
  refine eq_rdropWhile_of_cons rfl (fun b bs => ?_) p
  rw [stripNul]
  split <;> simp [*]

/-- R246: a setter's text is without its trailing run of white space. -/
theorem trimEnd_eq_rdropWhile (t : List Byte) : trimEnd t = t.rdropWhile isSpace := by
  refine eq_rdropWhile_of_cons rfl (fun b bs => ?_) t
  rw [trimEnd]
  split <;> simp [*]

/-- Dropping a trailing run leaves what stands before it. -/
theorem rdropWhile_append_run {p : Byte → Bool} {t run : List Byte} (hrun : ∀ b ∈ run, p b = true)
    (hlast : ∀ b, t.getLast? = some b → p b = false) : (t ++ run).rdropWhile p = t := by
  have hself : t.rdropWhile p = t := by
    rw [List.rdropWhile_eq_self_iff]
    intro hne
    simp [hlast _ (List.getLast?_eq_some_getLast hne)]
  rw [List.rdropWhile, List.reverse_append, List.dropWhile_append_of_pos (by simpa using hrun)]
  exact hself

theorem isSpace_iff (b : Byte) : isSpace b = true ↔ b = 0x20 ∨ (0x09 ≤ b.toNat ∧ b.toNat ≤ 0x0D) := by
  simp [isSpace]

/-- R82: what `text(p)` leaves off is 0x00 bytes, and what it keeps does not end in one. -/
theorem stripNul_spec (p : List Byte) : ∃ run, p = stripNul p ++ run ∧ (∀ b ∈ run, b = 0x00) ∧
    ∀ b, (stripNul p).getLast? = some b → b ≠ 0x00 := by
  rw [stripNul_eq_rdropWhile]
  refine ⟨p.rtakeWhile (· = 0x00), List.rdropWhile_append_rtakeWhile.symm,
    fun b hb => by simpa using List.mem_rtakeWhile_imp hb, fun b hb => ?_⟩
  obtain ⟨hne, rfl⟩ := List.mem_getLast?_eq_getLast hb
  simpa using List.rdropWhile_last_not _ p hne

/-- Settles O9: `k` is the length of the text. -/
theorem textDropsOnlyTrailingNuls : Obligations.TextDropsOnlyTrailingNuls := by
  intro p
  obtain ⟨run, hp, hrun, hlast⟩ := stripNul_spec p
  generalize stripNul p = kept at hp hlast ⊢
  subst hp
  refine ⟨kept.length, by simp, by simp, by simpa using hrun, ?_⟩
  cases hk : kept.getLast? with
  | none => exact .inl (by simpa using hk)
  | some b =>
    refine .inr ⟨b, ?_, hlast b hk⟩
    rw [List.getLast?_eq_getElem?] at hk
    have hlt := (List.getElem?_eq_some_iff.mp hk).1
    rw [List.getElem?_append_left hlt, hk]

/-- Settles O59: the NULs are the longest run that the strip drops, since neither white space nor the text ends in one,
and the white space is the longest run that the trim drops. -/
theorem paddedDisplayTextIsStoredTrimmed : Obligations.PaddedDisplayTextIsStoredTrimmed := by
  refine ⟨isSpace_iff, fun t ws n ht hws => ?_⟩
  have hstrip : stripNul (t ++ ws ++ List.replicate n 0x00) = t ++ ws := by
    rw [stripNul_eq_rdropWhile]
    refine rdropWhile_append_run (by simp) fun b hb => decide_eq_false ?_
    rw [List.getLast?_append, Option.or_eq_some_iff] at hb
    obtain hb | ⟨-, hb⟩ := hb
    · rintro rfl
      exact absurd (hws 0x00 (List.mem_of_getLast? hb)) (by decide)
    · exact (ht b hb).1
  have htrim : trimEnd (t ++ ws) = t := by
    rw [trimEnd_eq_rdropWhile]
    exact rdropWhile_append_run hws fun b hb => (ht b hb).2
  dsimp only
  rw [hstrip]
  exact ⟨rfl, htrim, fun d => by simp only [applySetter, htrim, and_self]⟩

/-! ### Softkey labels -/

/-- R83: the segments of a text, one more than it has separators, none with a separator in it, which the separators
join to the text. -/
theorem splitCaret_spec (t : List Byte) : (splitCaret t).length = t.count 0x5E + 1 ∧
    [(0x5E : Byte)].intercalate (splitCaret t) = t ∧ ∀ seg ∈ splitCaret t, (0x5E : Byte) ∉ seg := by
  induction t with
  | nil => simp [splitCaret]
  | cons b bs ih =>
    obtain ⟨hlen, hjoin, hfree⟩ := ih
    have hne : splitCaret bs ≠ [] := List.ne_nil_of_length_pos (by omega)
    unfold splitCaret
    split
    · next hb =>
      subst hb
      refine ⟨by simp [hlen], ?_, by simpa using hfree⟩
      rw [List.intercalate_cons_of_ne_nil hne, hjoin]
      rfl
    · next hb =>
      split
      · next h => exact absurd h hne
      · next seg segs h =>
        rw [h] at hlen hjoin hfree
        refine ⟨?_, ?_, ?_⟩
        · rw [List.count_cons_of_ne hb]
          exact hlen
        · rw [List.intercalate_cons_cons_left, hjoin]
        · intro seg' hseg'
          obtain rfl | hseg' := List.mem_cons.mp hseg'
          · exact List.not_mem_cons_of_ne_of_not_mem (Ne.symm hb) (hfree seg List.mem_cons_self)
          · exact hfree seg' (List.mem_cons_of_mem _ hseg')

/-- Settles O10: the segments are what the split gives. -/
theorem softkeysAreTheSegments : Obligations.SoftkeysAreTheSegments :=
  fun t => ⟨splitCaret t, rfl, splitCaret_spec t⟩

end Sys2Proof.Machine

/-! PROOFS of the encoding statements (spec/30_encoding.md), the assembler: what assembles at all is a well-formed
command, and the line of each command assembles to it. -/

namespace Sys2Proof.Machine

/-! ### Printable texts -/

/-- R92: a quoted text's characters are printable. -/
def Tok.Printable : Tok → Prop
  | .word _ => True
  | .text cs => cs.all isPrintable = true
  | .comma => True

/-- The characters read so far of the quoted text that the lexer stands in. -/
def LexState.openText : LexState → List Char
  | .gap => []
  | .word _ => []
  | .quoted acc => acc
  | .escaped acc => acc

/-- Both escapes are printable. -/
theorem isPrintable_of_escape {c : Char} (h : c = quoteMark ∨ c = backslash) : isPrintable c = true := by
  obtain rfl | rfl := h <;> decide

/-- R92: the lexer takes only printable characters into a text, unescaped or escaped. -/
theorem lex_printable {line : List Char} {st : LexState} {ts : List Tok} (hst : st.openText.all isPrintable = true)
    (h : lex line st = some ts) : ∀ t ∈ ts, t.Printable := by
  fun_induction lex line st generalizing ts
  case case1 =>
    cases h
    exact List.forall_mem_nil _
  case case2 =>
    cases h
    simp [Tok.Printable]
  -- No piece ends here and no text is open after it.
  case case5 ih | case7 ih | case8 ih | case12 ih => exact ih rfl h
  -- A comma, a word, or both.
  case case6 ih | case9 ih | case10 ih =>
    obtain ⟨rest, hrest, rfl⟩ := Option.map_eq_some_iff.mp h
    simpa [Tok.Printable] using ih rfl hrest
  -- The closing quotation mark: the piece is the open text.
  case case13 ih =>
    obtain ⟨rest, hrest, rfl⟩ := Option.map_eq_some_iff.mp h
    have htext : (Tok.text _).Printable := (List.all_reverse ..).trans hst
    exact List.forall_mem_cons.mpr ⟨htext, ih rfl hrest⟩
  -- Inside a text: a backslash, a printable character, an escaped character.
  case case14 ih => exact ih hst h
  case case15 hc ih => exact ih (by rw [LexState.openText, List.all_cons, hc]; exact hst) h
  case case17 hc ih => exact ih (by rw [LexState.openText, List.all_cons, isPrintable_of_escape hc]; exact hst) h
  all_goals cases h

/-! ### What assembles -/

/-- R92: splitting at the commas only leaves the commas out. -/
theorem splitArgs_subset {ts args : List Tok} (h : splitArgs ts = some args) : args ⊆ ts := by
  fun_induction splitArgs ts generalizing args
  case case1 => cases h; simp
  case case3 => cases h; simp
  case case5 t rest hrest ih =>
    obtain ⟨more, hmore, rfl⟩ := Option.map_eq_some_iff.mp h
    exact List.cons_subset_cons t (List.subset_cons_of_subset _ (ih hmore))
  all_goals cases h

/-- What R92 says of an assembled instruction: a well-formed command, and not ILLEGAL. -/
def ProperCommand (i : Instr) : Prop :=
  (∀ rom ps, i.wf rom ps = true) ∧ i.port = .command ∧ ∀ w, i ≠ .illegal w

/-- What assembles, if anything does, is a proper command. -/
def OnlyProper (o : Option Instr) : Prop := ∀ i, o = some i → ProperCommand i

theorem OnlyProper.none : OnlyProper none := nofun

theorem OnlyProper.some {i : Instr} (h : ProperCommand i) : OnlyProper (some i) := by
  intro j hj
  exact Option.some.inj hj ▸ h

theorem OnlyProper.ite {c : Prop} [Decidable c] {x y : Option Instr} (hx : OnlyProper x) (hy : OnlyProper y) :
    OnlyProper (if c then x else y) := by
  split
  · exact hx
  · exact hy

theorem OnlyProper.bind {α : Type} {o : Option α} {f : α → Option Instr}
    (h : ∀ a, o = .some a → OnlyProper (f a)) : OnlyProper (o.bind f) := by
  intro i hi
  obtain ⟨a, ha, hf⟩ := Option.bind_eq_some_iff.mp hi
  exact h a ha i hf

theorem OnlyProper.map {α : Type} {o : Option α} {f : α → Instr} (h : ∀ a, o = .some a → ProperCommand (f a)) :
    OnlyProper (o.map f) := by
  intro i hi
  obtain ⟨a, ha, rfl⟩ := Option.map_eq_some_iff.mp hi
  exact h a ha

/-- R90, R92: a printable character is a text byte of DISPLAY_TEXT. -/
theorem charBytes_ascii {cs : List Char} (h : cs.all isPrintable = true) : (charBytes cs).all isAscii = true := by
  simp only [charBytes, List.all_map, List.all_eq_true, Function.comp_apply] at h ⊢
  intro c hc
  have hc := h c hc
  simp only [isPrintable, Bool.and_eq_true, decide_eq_true_eq] at hc
  simp only [isAscii, BitVec.toNat_ofNat, decide_eq_true_eq]
  omega

/-- R90, R92: a text that assembles is at most 255 ASCII bytes. -/
theorem textArg_eq_some {t : Tok} {bytes : List Byte} (ht : t.Printable) (h : textArg t = some bytes) :
    bytes.length ≤ 255 ∧ bytes.all isAscii = true := by
  unfold textArg at h
  split at h
  · split at h
    · next hlen =>
      cases h
      exact ⟨by simpa [charBytes] using hlen, charBytes_ascii ht⟩
    · cases h
  · cases h

/-- R90, R92: a lamp's name is at most 255 bytes. -/
theorem lampArg_proper {t : Tok} {lamp : Lamp} (h : lampArg t = some lamp) (fn : Byte) :
    ProperCommand (.lampControl lamp fn) := by
  refine ⟨fun rom ps => ?_, rfl, nofun⟩
  unfold lampArg at h
  split at h
  · cases h
  · split at h
    · split at h
      · next hname =>
        cases h
        simp only [List.all_eq_true, Bool.and_eq_true, decide_eq_true_eq] at hname
        obtain ⟨-, hlen⟩ := hname
        exact decide_eq_true (by simp [charBytes]; omega)
      · cases h
    · obtain ⟨id, -, rfl⟩ := Option.map_eq_some_iff.mp h
      rfl
  · cases h

/-- R92: whatever the arguments, only proper commands assemble. -/
theorem assembleArgs_proper (name : List Char) {args : List Tok} (hargs : ∀ t ∈ args, t.Printable) :
    OnlyProper (assembleArgs name args) := by
  unfold assembleArgs
  refine .ite ?enterScan (.ite ?reset (.ite ?enterSub (.ite ?setChannel (.ite ?sendButton (.ite ?displayText
    (.ite ?lampControl (.ite ?illumLevel (.ite ?genericEvent (.ite ?audioEnable (.ite ?setRxFreq (.ite ?setTxFreq
    (.ite ?readEeprom .none))))))))))))
  case displayText =>
    split
    · refine .bind fun bytes hbytes => .map fun offset _ => ⟨fun rom ps => ?_, rfl, nofun⟩
      obtain ⟨hlen, hascii⟩ := textArg_eq_some (hargs _ List.mem_cons_self) hbytes
      simp [Instr.wf, hlen, hascii]
    · exact .none
  case lampControl =>
    split
    · exact .bind fun _ hlamp => .map fun fn _ => lampArg_proper hlamp fn
    · exact .none
  case readEeprom =>
    split
    · exact .bind fun _ _ => .bind fun _ _ => .map fun _ _ => ⟨fun _ _ => rfl, rfl, nofun⟩
    · exact .ite (.bind fun _ _ => .bind fun _ _ => .map fun _ _ => ⟨fun _ _ => rfl, rfl, nofun⟩) .none
    · exact .none
  case enterScan | reset =>
    split
    · exact .some ⟨fun _ _ => rfl, rfl, nofun⟩
    · exact .none
  case enterSub | setChannel | audioEnable | setRxFreq | setTxFreq =>
    split
    · exact .map fun _ _ => ⟨fun _ _ => rfl, rfl, nofun⟩
    · exact .none
  case sendButton | illumLevel | genericEvent =>
    split
    · exact .bind fun _ _ => .map fun _ _ => ⟨fun _ _ => rfl, rfl, nofun⟩
    · exact .none

/-- R92: whatever the line, only a proper command assembles. -/
theorem assemble_proper (line : List Char) : OnlyProper (assemble line) := by
  unfold assemble
  split
  · next name rest hlex =>
    refine .bind fun args hargs => assembleArgs_proper name fun t ht => ?_
    exact lex_printable (st := .gap) rfl hlex t (List.mem_cons_of_mem _ (splitArgs_subset hargs ht))
  · exact .none

/-! ### The line of each command -/

/-- R92: a line assembles as its pieces do; the thirteen names are of identifier characters. -/
theorem assemble_line {name : String} {args : List (List Char)} {toks : List Tok}
    (hname : name.toList ≠ [] ∧ name.toList.all isIdentChar = true) (h : List.Forall₂ Reads args toks) :
    assemble (commandLine name args) = assembleArgs name.toList toks :=
  assemble_commandLine ⟨hname.1, fun c hc => isIdentChar_plain (List.all_eq_true.mp hname.2 c hc)⟩ h

theorem flagArg_of_numeral {flag : Byte} {n : List Char} (hflag : flag = 0x00 ∨ flag = 0x01)
    (h : IsNumeral flag.toNat n) : flagArg (.word n) = some flag := by
  simp only [flagArg, u8Arg_of_numeral h, if_pos hflag]

theorem textArg_of_length {text : List Char} (h : text.length ≤ 255) : textArg (.text text) = some (charBytes text) :=
  if_pos h

theorem assemble_setChannel {ch : Word32} {n : List Char} (h : IsNumeral ch.toInt.natAbs n) :
    (0 ≤ ch.toInt → assemble (commandLine "set-channel" [n]) = some (.setChannel ch)) ∧
      (ch.toInt < 0 → assemble (commandLine "set-channel" ['-' :: n]) = some (.setChannel ch)) := by
  refine ⟨fun hch => ?_, fun hch => ?_⟩
  · rw [assemble_line (by decide) (.cons (reads_numeral h) .nil)]
    simp [assembleArgs, s32Arg_of_numeral h hch]
  · rw [assemble_line (by decide) (.cons (reads_negative h) .nil)]
    simp [assembleArgs, s32Arg_of_negative h hch]

/-- R92: the three commands of two bytes; a lamp's numeric id is one. -/
theorem assemble_twoBytes {x y : Byte} {m n : List Char} (hm : IsNumeral x.toNat m) (hn : IsNumeral y.toNat n) :
    assemble (commandLine "send-button-event" [m, n]) = some (.sendButton x y) ∧
      assemble (commandLine "lamp-control" [m, n]) = some (.lampControl (.byId x) y) ∧
      assemble (commandLine "illumination-level" [m, n]) = some (.illumLevel x y) := by
  have hreads : List.Forall₂ Reads [m, n] [.word m, .word n] :=
    .cons (reads_numeral hm) (.cons (reads_numeral hn) .nil)
  refine ⟨?_, ?_, ?_⟩
  · rw [assemble_line (by decide) hreads]
    simp [assembleArgs, u8Arg_of_numeral hm, u8Arg_of_numeral hn]
  · rw [assemble_line (by decide) hreads]
    simp [assembleArgs, lampArg_of_numeral hm, u8Arg_of_numeral hn]
  · rw [assemble_line (by decide) hreads]
    simp [assembleArgs, u8Arg_of_numeral hm, u8Arg_of_numeral hn]

theorem assemble_displayText {text : List Char} {offset : Byte} {n : List Char} (htext : text.all isPrintable = true)
    (hlen : text.length ≤ 255) (h : IsNumeral offset.toNat n) :
    assemble (commandLine "display-text" [quotedText text, n]) = some (.displayText offset (charBytes text)) := by
  rw [assemble_line (by decide) (.cons (reads_quotedText htext) (.cons (reads_numeral h) .nil))]
  simp [assembleArgs, textArg_of_length hlen, u8Arg_of_numeral h]

theorem assemble_lampName {c : Char} {cs : List Char} {fn : Byte} {n : List Char} (hc : isLetter c = true)
    (hcs : cs.all isIdentChar = true) (hlen : (c :: cs).length ≤ 255) (h : IsNumeral fn.toNat n) :
    assemble (commandLine "lamp-control" [c :: cs, n]) =
      some (.lampControl (.byName (charBytes (c :: cs))) fn) := by
  rw [assemble_line (by decide) (.cons (reads_name hc hcs) (.cons (reads_numeral h) .nil))]
  simp [assembleArgs, lampArg_of_name hc hcs hlen, u8Arg_of_numeral h]

theorem assemble_genericEvent {id : Byte} {value : Word32} {m n : List Char} (hm : IsNumeral id.toNat m)
    (hn : IsNumeral value.toNat n) :
    assemble (commandLine "generic-control-event" [m, n]) = some (.genericEvent id value) := by
  rw [assemble_line (by decide) (.cons (reads_numeral hm) (.cons (reads_numeral hn) .nil))]
  simp [assembleArgs, u8Arg_of_numeral hm, u32Arg_of_numeral hn]

theorem assemble_frequencies {hz : Word32} {n : List Char} (h : IsNumeral hz.toNat n) :
    assemble (commandLine "set-rx-frequency" [n]) = some (.setRxFreq hz) ∧
      assemble (commandLine "set-tx-frequency" [n]) = some (.setTxFreq hz) := by
  refine ⟨?_, ?_⟩ <;>
  · rw [assemble_line (by decide) (.cons (reads_numeral h) .nil)]
    simp [assembleArgs, u32Arg_of_numeral h]

/-- R92: without the word `progress` the progress byte is 0x00, with it 0x01. -/
theorem assemble_readEeprom {module : Byte} {start endAddr : Word32} {n a e : List Char}
    (hn : IsNumeral module.toNat n) (ha : IsNumeral start.toNat a) (he : IsNumeral endAddr.toNat e) :
    assemble (commandLine "read-eeprom-range" [n, a, e]) = some (.readEeprom module start endAddr 0x00) ∧
      assemble (commandLine "read-eeprom-range" [n, a, e, "progress".toList]) =
        some (.readEeprom module start endAddr 0x01) := by
  have hword : Reads "progress".toList (.word "progress".toList) := reads_name (by decide) (by decide)
  refine ⟨?_, ?_⟩
  · rw [assemble_line (by decide)
      (.cons (reads_numeral hn) (.cons (reads_numeral ha) (.cons (reads_numeral he) .nil)))]
    simp [assembleArgs, u8Arg_of_numeral hn, u32Arg_of_numeral ha, u32Arg_of_numeral he]
  · rw [assemble_line (by decide)
      (.cons (reads_numeral hn) (.cons (reads_numeral ha) (.cons (reads_numeral he) (.cons hword .nil))))]
    simp [assembleArgs, u8Arg_of_numeral hn, u32Arg_of_numeral ha, u32Arg_of_numeral he]

/-- Settles O8: `assemble_proper`, and the lemma of each command's line. -/
theorem assembledCommandIsWellFormed : Obligations.AssembledCommandIsWellFormed := by
  refine ⟨fun rom ps line i h => ?_, assemble_line (by decide) .nil, assemble_line (by decide) .nil,
    fun m n h => ?_, fun _ _ => assemble_setChannel, fun _ _ _ _ => assemble_twoBytes,
    fun _ _ _ => assemble_displayText, fun _ _ _ _ => assemble_lampName, fun _ _ _ _ => assemble_genericEvent,
    fun flag n hflag h => ?_, fun _ _ => assemble_frequencies, fun _ _ _ _ _ _ => assemble_readEeprom⟩
  · obtain ⟨hwf, hport, hlegal⟩ := assemble_proper line i h
    exact ⟨hwf rom ps, hport, hlegal⟩
  · rw [assemble_line (by decide) (.cons (reads_numeral h) .nil)]
    simp [assembleArgs, u8Arg_of_numeral h]
  · rw [assemble_line (by decide) (.cons (reads_numeral h) .nil)]
    simp [assembleArgs, flagArg_of_numeral hflag h]

end Sys2Proof.Machine

/-! PROOFS of the outer decode statements (spec/40_decode_outer.md). What each class emits and the mode it leaves, once
for all classes; which class a window in mode Idle has, by its length or its row; and the step on such a window. -/

namespace Sys2Proof.Machine

/-! ### What a class emits -/

/-- R112 to R119: the events of each outer class, in their order. No other class has any. -/
def outerEvents (rom : Rom) : Instr → List Event
  | .decEnterSbep p1 p2 => [.log (.sbepEnter p1 p2)]
  | .decButton p1 p2 => buttonEvents rom p1 p2
  | .decKnob p1 p2 => knobEvents rom p1 p2
  | .decBacklight p1 p2 => [.log (.backlight p1 p2)]
  | .decAudioMute _ p2 => audioMuteEvents p2
  | .decChanSelect p1 p2 => [.log (.chanSelect p1 p2)]
  | .decChanAck p1 p2 => [.log (.chanAck p1 p2)]
  | .decOuterOther a p1 p2 f => [.log (.outerUnknown a p1 p2 f)]
  | _ => []

/-- R112: only ENTER_SBEP writes the mode. -/
def outerMode (m : Mode) : Instr → Mode
  | .decEnterSbep _ _ => .sbepPending
  | _ => m

/-- R112 to R119: an outer class emits its events, leaves its mode, and changes nothing else. -/
theorem emits_of_outer {i : Instr} {s : State} (hop : s.op = .operational) (hport : i.port = .outer) :
    Emits i s (outerMode s.mode i) (outerEvents s.cfg i) := by
  unfold Emits exec
  cases i <;> simp only [Instr.port, reduceCtorEq] at hport
  all_goals exact whenOperational_of_operational hop _

/-! ### The events of the classes with more than one case -/

theorem buttonName_of_lookup {rom : Rom} {c : Byte} {e : ButtonEntry} (h : rom.buttonTable.lookup c = some e) :
    buttonName rom c = .known e.name := by
  simp [buttonName, h]

theorem isVolumeKnob_of_lookup {rom : Rom} {c : Byte} {e : ButtonEntry} (h : rom.buttonTable.lookup c = some e) :
    isVolumeKnob rom c = e.volume := by
  simp [isVolumeKnob, h]

theorem buttonEvents_press (rom : Rom) (p1 : Byte) :
    buttonEvents rom p1 0x01 = [.log (.buttonPress (buttonName rom p1))] := if_pos rfl

theorem buttonEvents_release {p2 : Byte} (h : p2 ≠ 0x01) (rom : Rom) (p1 : Byte) :
    buttonEvents rom p1 p2 = [.log (.buttonRelease (buttonName rom p1) p2)] := if_neg h

theorem knobEvents_volume {rom : Rom} {p1 : Byte} (h : isVolumeKnob rom p1 = true) (p2 : Byte) :
    knobEvents rom p1 p2 = [.state (.setVolume p2), .log (.knob (buttonName rom p1) p2)] := if_pos h

theorem knobEvents_not_volume {rom : Rom} {p1 : Byte} (h : isVolumeKnob rom p1 = false) (p2 : Byte) :
    knobEvents rom p1 p2 = [.log (.knob (buttonName rom p1) p2)] := if_neg (by simp [h])

theorem audioMuteEvents_unmute : audioMuteEvents 0x01 = [.state .unmute, .note .unmuted] := rfl

theorem audioMuteEvents_mute : audioMuteEvents 0x00 = [.state .mute, .note .muted] := rfl

theorem audioMuteEvents_other {p2 : Byte} (h0 : p2 ≠ 0x00) (h1 : p2 ≠ 0x01) :
    audioMuteEvents p2 = [.log (.audioOther p2)] := (if_neg h1).trans (if_neg h0)

/-- R121: an outer class has one event, or two when it is the volume knob or a mute or unmute. -/
theorem outerEvents_length {i : Instr} (hport : i.port = .outer) (rom : Rom) :
    (outerEvents rom i).length = 1 ∨ (outerEvents rom i).length = 2 := by
  cases i <;> simp only [Instr.port, reduceCtorEq] at hport
  case decButton p1 p2 =>
    simp only [outerEvents, buttonEvents]
    split <;> exact .inl rfl
  case decKnob p1 p2 =>
    simp only [outerEvents, knobEvents]
    split
    · exact .inr rfl
    · exact .inl rfl
  case decAudioMute p1 p2 =>
    simp only [outerEvents, audioMuteEvents]
    split
    · exact .inr rfl
    · split
      · exact .inr rfl
      · exact .inl rfl
  all_goals exact .inl rfl

/-- R121: from Idle the mode becomes SbepPending in class ENTER_SBEP, and only there. -/
theorem outerMode_idle_cases (i : Instr) :
    (outerMode .idle i = .sbepPending ∧ ∃ p1 p2, i = .decEnterSbep p1 p2) ∨
      (outerMode .idle i = .idle ∧ ∀ p1 p2, i ≠ .decEnterSbep p1 p2) := by
  cases i
  case decEnterSbep p1 p2 => exact .inl ⟨rfl, p1, p2, rfl⟩
  all_goals exact .inr ⟨rfl, fun _ _ h => Instr.noConfusion h⟩

/-! ### The class of a window -/

/-- R76: the mode decides the format of a window's class. -/
theorem port_windowInstr (s : State) (w : List Byte) : (windowInstr s w).port = s.mode.port :=
  (everyDecodedInstructionIsWellFormed s.cfg s.params s.mode.port w).2

theorem windowInstr_of_idle {s : State} (h : s.mode = .idle) (w : List Byte) :
    windowInstr s w = decodeOuter s.cfg w := by
  simp [windowInstr, h, Mode.port, decode]

theorem port_windowInstr_of_idle {s : State} (h : s.mode = .idle) (w : List Byte) :
    (windowInstr s w).port = .outer := by
  rw [port_windowInstr, h]
  rfl

/-- R71, R111: with four bytes present, the rows decide; later bytes are not read. -/
theorem decodeOuter_four (rom : Rom) (a p1 p2 f : Byte) (tail : List Byte) :
    decodeOuter rom ([a, p1, p2, f] ++ tail) = selectOuter rom a p1 p2 f := rfl

/-- R71, R119: without a function byte no row selects the window. -/
theorem decodeOuter_of_length_lt {w : List Byte} (h : w.length < 4) (rom : Rom) :
    decodeOuter rom w = .decOuterOther w[0]? w[1]? w[2]? none :=
  match w, h with
  | [], _ | [_], _ | [_, _], _ | [_, _, _], _ => rfl
  | _ :: _ :: _ :: _ :: _, h => by simp only [List.length_cons] at h; omega

/-- R71, R120: the bytes after the fourth are not read. -/
theorem decodeOuter_append {w : List Byte} (h : w.length = 4) (rom : Rom) (tail : List Byte) :
    decodeOuter rom (w ++ tail) = decodeOuter rom w := by
  obtain ⟨a, p1, p2, f, rfl⟩ := List.length_eq_four.mp h
  rfl

theorem windowInstr_of_length_lt {s : State} {w : List Byte} (hmode : s.mode = .idle) (h : w.length < 4) :
    windowInstr s w = .decOuterOther w[0]? w[1]? w[2]? none :=
  (windowInstr_of_idle hmode w).trans (decodeOuter_of_length_lt h s.cfg)

/-- R111: in Idle, a window with the address and function of a reachable row is of the row's class. -/
theorem windowInstr_of_row {s : State} {n : Nat} {a f : Byte} (hmode : s.mode = .idle)
    (hr : s.cfg.rowReachable n = true) (hp : s.cfg.outerRows[n]? = some (a, f)) (p1 p2 : Byte) (tail : List Byte) :
    windowInstr s ([a, p1, p2, f] ++ tail) = outerClass s.cfg p1 p2 n := by
  rw [windowInstr_of_idle hmode, decodeOuter_four, selectOuter_of_row hr hp]

/-- R111: row 1 is KNOB for the code of a knob. -/
theorem outerClass_knob {rom : Rom} {p1 : Byte} {e : ButtonEntry} (hl : rom.buttonTable.lookup p1 = some e)
    (hk : e.kind = .knob) (p2 : Byte) : outerClass rom p1 p2 1 = .decKnob p1 p2 := by
  simp [outerClass, Rom.isKnobCode, hl, hk]

/-- R111: row 1 is BUTTON for a code that has no entry or the entry of a button. -/
theorem outerClass_button {rom : Rom} {p1 : Byte}
    (h : ∀ e, rom.buttonTable.lookup p1 = some e → e.kind = .button) (p2 : Byte) :
    outerClass rom p1 p2 1 = .decButton p1 p2 := by
  cases hl : rom.buttonTable.lookup p1 with
  | none => simp [outerClass, Rom.isKnobCode, hl]
  | some e => simp [outerClass, Rom.isKnobCode, hl, h e hl]

/-! ### The step on a window in Idle -/

/-- R11, R121: the step takes the request and runs the window's class, which emits. -/
theorem step_outer_window {s : State} {w : List Byte} {rest : List Request} (hop : s.op = .operational)
    (hseq : s.seq = .ready) (hmode : s.mode = .idle) (hreq : s.requests = .window w :: rest) :
    step s = .next { s with
      requests := rest
      mode := outerMode s.mode (windowInstr s w)
      trace := s.trace ++ [.decoded (outerEvents s.cfg (windowInstr s w))] } :=
  (step_window (inProgress_of_ready hseq) hreq).trans
    (emits_of_outer (s := { s with requests := rest }) hop (port_windowInstr_of_idle hmode w))

/-! ### The statements -/

/-- Settles O5: a short window is OUTER_OTHER, and the step runs it; a longer tail is not read. -/
theorem truncatedAndPaddedOuterFrames : Obligations.TruncatedAndPaddedOuterFrames := by
  refine ⟨fun s w rest hop hseq hmode hlen hreq => ?_, fun rom w tail hlen => decodeOuter_append hlen rom tail⟩
  have hclass := windowInstr_of_length_lt hmode hlen
  have hstep := step_outer_window hop hseq hmode hreq
  rw [hclass] at hstep
  exact ⟨hclass, hstep⟩

/-- Settles O14: the name is the table's or the raw code; row 1 with a code that is no knob's. -/
theorem buttonFrame : Obligations.ButtonFrame := by
  refine ⟨fun s p1 p2 hop => ?_, fun s p1 p2 tail hmode hrow hkind => ?_⟩
  · have hemit : Emits (.decButton p1 p2) s s.mode (buttonEvents s.cfg p1 p2) := emits_of_outer hop rfl
    refine ⟨fun hpress => ?_, fun hrelease => ?_⟩
    · rw [hpress, buttonEvents_press] at hemit
      exact hpress ▸ hemit
    · rw [buttonEvents_release hrelease] at hemit
      exact hemit
  · exact (windowInstr_of_row hmode hrow rfl p1 p2 tail).trans (outerClass_button hkind p2)

/-- Settles O15: the entry gives the name and whether the knob is the volume knob; row 1 with a knob's code. -/
theorem knobFrame : Obligations.KnobFrame := by
  refine ⟨fun s p1 p2 e hop hl => ?_, fun s p1 p2 tail e hmode hrow hl hkind => ?_⟩
  · have hemit : Emits (.decKnob p1 p2) s s.mode (knobEvents s.cfg p1 p2) := emits_of_outer hop rfl
    have hvolume := isVolumeKnob_of_lookup hl
    rw [← buttonName_of_lookup hl]
    exact ⟨fun h => knobEvents_volume (hvolume.trans h) p2 ▸ hemit,
      fun h => knobEvents_not_volume (hvolume.trans h) p2 ▸ hemit⟩
  · exact (windowInstr_of_row hmode hrow rfl p1 p2 tail).trans (outerClass_knob hl hkind p2)

/-- Settles O17: the three cases of param2, and row 3. -/
theorem audioMuteFrame : Obligations.AudioMuteFrame := by
  refine ⟨fun s p1 p2 hop => ?_, fun s p1 p2 tail hmode hrow => windowInstr_of_row hmode hrow rfl p1 p2 tail⟩
  have hemit (v : Byte) : Emits (.decAudioMute p1 v) s s.mode (audioMuteEvents v) := emits_of_outer hop rfl
  exact ⟨audioMuteEvents_unmute ▸ hemit 0x01, audioMuteEvents_mute ▸ hemit 0x00,
    fun h0 h1 => audioMuteEvents_other h0 h1 ▸ hemit p2⟩

/-- Settles O18: a window without a function byte, and one whose pair is no row's. -/
theorem outerFallback : Obligations.OuterFallback := by
  refine ⟨fun s a p1 p2 f hop => emits_of_outer hop rfl, fun s w hmode hlen => windowInstr_of_length_lt hmode hlen,
    fun s a p1 p2 f tail hmode hpair => ?_⟩
  rw [windowInstr_of_idle hmode, decodeOuter_four, selectOuter_of_not_mem hpair]

/-- Settles O22: the window's class is an outer one, whatever its bytes, and the step runs it. -/
theorem outerDecodeNeverRaises : Obligations.OuterDecodeNeverRaises := by
  intro s w rest hop hseq hmode hreq
  have hstep := step_outer_window hop hseq hmode hreq
  rw [hmode] at hstep
  exact ⟨_, _, hstep, outerEvents_length (port_windowInstr_of_idle hmode w) s.cfg, outerMode_idle_cases _⟩

/-- Settles O13: row 0 is reachable in every ROM; in SbepPending a window has no outer class. -/
theorem enterSbepFrame : Obligations.EnterSbepFrame := by
  refine ⟨fun s p1 p2 hop => emits_of_outer hop rfl,
    fun s p1 p2 tail hmode => windowInstr_of_row (n := 0) hmode rfl rfl p1 p2 tail, fun s w p1 p2 hmode henter => ?_⟩
  have hport := port_windowInstr s w
  rw [henter, hmode] at hport
  cases hport

/-- Settles O16: each class's one log, and rows 2, 4 and 5. -/
theorem logOnlyFrames : Obligations.LogOnlyFrames := by
  refine ⟨fun s p1 p2 hop => ⟨emits_of_outer hop rfl, emits_of_outer hop rfl, emits_of_outer hop rfl⟩,
    fun s p1 p2 tail hmode => ⟨fun hrow => ?_, fun hrow => ?_, fun hrow => ?_⟩⟩
  · exact windowInstr_of_row hmode hrow rfl p1 p2 tail
  · exact windowInstr_of_row hmode hrow rfl p1 p2 tail
  · exact windowInstr_of_row hmode hrow rfl p1 p2 tail

end Sys2Proof.Machine

/-! PROOFS of the SBEP decode statements (spec/41_decode_sbep.md). What each class emits, once for the three classes, each
of which leaves the mode at Idle; which class a window in mode SbepPending has, by its address and its length; and the
step on such a window, with the mode that any window leaves behind. -/

namespace Sys2Proof.Machine

/-! ### What a class emits -/

/-- R142 to R144: the events of each SBEP class, in their order. No other class has any. -/
def sbepEvents (rom : Rom) : Instr → List Event
  | .decSbText sa p => sbTextEvents rom sa p
  | .decSbIcon sa op => sbIconEvents rom sa op
  | .decSbOther w => [.log (.sbepUnknown w w[0]? w[1]? w[2]? w[4]?)]
  | _ => []

/-- R140, R142 to R144: an SBEP class emits its events, leaves the mode at Idle, and changes nothing else. -/
theorem emits_of_sbep {i : Instr} {s : State} (hop : s.op = .operational) (hport : i.port = .sbep) :
    Emits i s .idle (sbepEvents s.cfg i) := by
  unfold Emits exec
  cases i <;> simp only [Instr.port, reduceCtorEq] at hport
  all_goals exact whenOperational_of_operational hop _

/-- R142: a sub-device of the table has its role's state event, if any, and a note under its name. -/
theorem sbTextEvents_of_lookup {rom : Rom} {sa : Byte} {e : SubdevEntry} (h : rom.subdevTable.lookup sa = some e)
    (p : List Byte) :
    sbTextEvents rom sa p =
      textStateEvents (some e.role) (stripNul p) ++ [.note (.text (.known e.name) (stripNul p))] := by
  simp only [sbTextEvents, subdevRole, subdevName, h]

/-- R142: a sub-device that is not in the table has only a note, under its raw code. -/
theorem sbTextEvents_of_lookup_none {rom : Rom} {sa : Byte} (h : rom.subdevTable.lookup sa = none) (p : List Byte) :
    sbTextEvents rom sa p = [.note (.text (.unknown sa) (stripNul p))] := by
  simp only [sbTextEvents, subdevRole, subdevName, h, textStateEvents, List.nil_append]

/-- R84: an SBEP class always has an event; SB_TEXT has its note whatever the role. -/
theorem sbepEvents_ne_nil {i : Instr} (hport : i.port = .sbep) (rom : Rom) : sbepEvents rom i ≠ [] := by
  cases i <;> simp only [Instr.port, reduceCtorEq] at hport
  case decSbText sa p => exact List.append_ne_nil_of_right_ne_nil _ (List.cons_ne_nil _ _)
  case decSbIcon sa op => exact List.cons_ne_nil _ _
  case decSbOther w => exact List.cons_ne_nil _ _

/-! ### The class of a window -/

theorem windowInstr_of_sbepPending {s : State} (h : s.mode = .sbepPending) (w : List Byte) :
    windowInstr s w = decodeSbep s.cfg s.params w := by
  simp only [windowInstr, h, Mode.port, decode]

theorem port_windowInstr_of_sbepPending {s : State} (h : s.mode = .sbepPending) (w : List Byte) :
    (windowInstr s w).port = .sbep := by
  rw [port_windowInstr, h]
  rfl

/-- R141: a window at SB_TEXT_ADDR with its second byte present is SB_TEXT. -/
theorem decodeSbep_text (rom : Rom) (ps : Params) (sa : Byte) (tail : List Byte) :
    decodeSbep rom ps (rom.sbTextAddr :: sa :: tail) = .decSbText sa (payload ps (rom.sbTextAddr :: sa :: tail)) :=
  if_pos rfl

/-- R141: a window at SB_ICON_ADDR with its fifth byte present is SB_ICON, if the row before it misses. -/
theorem decodeSbep_icon {rom : Rom} (h : rom.sbIconAddr ≠ rom.sbTextAddr) (ps : Params) (sa l pad op : Byte)
    (tail : List Byte) : decodeSbep rom ps ([rom.sbIconAddr, sa, l, pad, op] ++ tail) = .decSbIcon sa op :=
  (if_neg fun haddr => h (Option.some.inj haddr)).trans (if_pos rfl)

/-- R141, R144: a window that both rows miss, by its address or by the byte that the row needs, is SB_OTHER. -/
theorem windowInstr_sbOther {s : State} {w : List Byte} (hmode : s.mode = .sbepPending)
    (htext : w[0]? = some s.cfg.sbTextAddr → w[1]? = none) (hicon : w[0]? = some s.cfg.sbIconAddr → w[4]? = none) :
    windowInstr s w = .decSbOther w :=
  (windowInstr_of_sbepPending hmode w).trans (decodeSbep_of_other ((decSbOther_wf_iff _ _ w).mpr ⟨htext, hicon⟩))

/-! ### The step on a window -/

/-- R11, R140: in SbepPending the step takes the request and runs the window's class, which emits and returns to
Idle. -/
theorem step_sbep_window {s : State} {w : List Byte} {rest : List Request} (hop : s.op = .operational)
    (hseq : s.seq = .ready) (hmode : s.mode = .sbepPending) (hreq : s.requests = .window w :: rest) :
    step s = .next { s with
      requests := rest
      mode := .idle
      trace := s.trace ++ [.decoded (sbepEvents s.cfg (windowInstr s w))] } :=
  (step_window (inProgress_of_ready hseq) hreq).trans
    (emits_of_sbep (s := { s with requests := rest }) hop (port_windowInstr_of_sbepPending hmode w))

/-- R112: an outer class leads from Idle to SbepPending exactly when it is ENTER_SBEP. -/
theorem outerMode_idle_eq_sbepPending_iff (i : Instr) :
    outerMode .idle i = .sbepPending ↔ ∃ p1 p2, i = .decEnterSbep p1 p2 := by
  obtain ⟨hmode, henter⟩ | ⟨hmode, hother⟩ := outerMode_idle_cases i
  · exact iff_of_true hmode henter
  · rw [hmode]
    exact iff_of_false Mode.noConfusion fun ⟨p1, p2, henter⟩ => hother p1 p2 henter

/-- R146: a window leaves SbepPending behind exactly when it is an ENTER_SBEP that is decoded in Idle. -/
theorem step_window_mode_iff {s t : State} {w : List Byte} {rest : List Request} (hop : s.op = .operational)
    (hseq : s.seq = .ready) (hreq : s.requests = .window w :: rest) (h : step s = .next t) :
    t.mode = .sbepPending ↔ s.mode = .idle ∧ ∃ p1 p2, windowInstr s w = .decEnterSbep p1 p2 := by
  cases hmode : s.mode with
  | idle =>
    have ht := Host.Outcome.next.inj ((step_outer_window hop hseq hmode hreq).symm.trans h)
    rw [← ht, hmode, outerMode_idle_eq_sbepPending_iff]
    exact (and_iff_right rfl).symm
  | sbepPending =>
    have ht := Host.Outcome.next.inj ((step_sbep_window hop hseq hmode hreq).symm.trans h)
    rw [← ht]
    exact iff_of_false Mode.noConfusion fun ⟨hidle, _⟩ => Mode.noConfusion hidle

/-! ### The statements -/

/-- Settles O19: the table's entry gives the role and the name, its absence the raw code; row 1 of the SBEP classes. -/
theorem displayTextFrame : Obligations.DisplayTextFrame := by
  refine ⟨fun s sa p e hop hl => ?_, fun s sa p hop hl => ?_, fun s sa tail hmode => ?_⟩
  · have hemit : Emits (.decSbText sa p) s .idle (sbTextEvents s.cfg sa p) := emits_of_sbep hop rfl
    rw [sbTextEvents_of_lookup hl] at hemit
    refine ⟨fun hrole => ?_, fun hrole => ?_, fun hrole => ?_, fun hrole => ?_⟩ <;>
    · rw [hrole] at hemit
      exact hemit
  · exact sbTextEvents_of_lookup_none hl p ▸ emits_of_sbep (i := .decSbText sa p) hop rfl
  · rw [windowInstr_of_sbepPending hmode, decodeSbep_text]

/-- Settles O20: the events under the name that `iconName` looks up, which the statement writes out; and row 2 where its
address is not row 1's. -/
theorem displayIconFrame : Obligations.DisplayIconFrame := by
  refine ⟨fun s sa op hop => ?_, fun s sa l pad op tail hmode haddr => ?_⟩
  · have hemit : Emits (.decSbIcon sa op) s .idle (sbIconEvents s.cfg sa op) := emits_of_sbep hop rfl
    exact hemit
  · rw [windowInstr_of_sbepPending hmode, decodeSbep_icon haddr]

/-- Settles O21: a window is missed by a row that needs a byte it has not, or that has another address. -/
theorem sbepFallback : Obligations.SbepFallback := by
  refine ⟨fun s w hop => emits_of_sbep hop rfl, fun s w hmode hlen => ?_, fun s w hmode hlen htext => ?_,
    fun s w hmode htext hicon => ?_⟩
  · exact windowInstr_sbOther hmode (fun _ => List.getElem?_eq_none (by omega))
      fun _ => List.getElem?_eq_none (by omega)
  · exact windowInstr_sbOther hmode (fun h => absurd h htext) fun _ => List.getElem?_eq_none (by omega)
  · exact windowInstr_sbOther hmode (fun h => absurd h htext) fun h => absurd h hicon

/-- Settles O23: the window's class is an SBEP one, whatever its bytes, and the step runs it. -/
theorem sbepDecodeReturnsToIdle : Obligations.SbepDecodeReturnsToIdle := by
  intro s w rest hop hseq hmode hreq
  exact ⟨_, sbepEvents_ne_nil (port_windowInstr_of_sbepPending hmode w) s.cfg, step_sbep_window hop hseq hmode hreq⟩

/-- Settles O24: `step_window_mode_iff`, the format that the mode decides, and SB_OTHER for the address 0x00 of a second
enter-SBEP frame. -/
theorem modeSequence : Obligations.ModeSequence := by
  refine ⟨fun s t w rest hop hseq hreq h => ⟨step_window_mode_iff hop hseq hreq h, fun hmode w' =>
    port_windowInstr_of_sbepPending hmode w'⟩, fun s p1 p2 tail hmode htext hicon => ?_⟩
  exact windowInstr_sbOther hmode (fun h => absurd (Option.some.inj h).symm htext)
    fun h => absurd (Option.some.inj h).symm hicon

end Sys2Proof.Machine

/-! PROOFS of the single-transfer command statements (spec/42_encode_commands.md). One law says what a command does that
issues a list of primitives, each after the Ok of the one before: with a response for every primitive it returns Ok, at
a failure it raises, and without a response it waits. The three forms of run that the statements speak of are that law
for one, two and three primitives; what is left of each command is its check, its word, and the values that it sends. -/

namespace Sys2Proof.Machine

/-! ### A command that issues a list of primitives -/

/-- R21: outside a read-eeprom an Ok leads to the next step. -/
theorem advanceOk_of_ne {i : Instr} (hi : ∀ m a b p, i ≠ .readEeprom m a b p) (k : Nat) (opcode : Byte)
    (data : List Byte) (s : State) : advanceOk i k opcode data s = enterStep i (k + 1) s := by
  cases i
  case readEeprom m a b p => exact absurd rfl (hi m a b p)
  all_goals rfl

/-- R32: the end of any command but a read-eeprom releases nothing. -/
theorem releaseBulk_of_ne {i : Instr} (hi : ∀ m a b p, i ≠ .readEeprom m a b p) {s : State} {k : Nat}
    (hs : s.seq = .step i k) : releaseBulk s = s := by
  unfold releaseBulk
  split
  · next m a b p j hstep =>
    cases hs.symm.trans hstep
    exact absurd rfl (hi m a b p)
  · rfl

theorem State.setSeq_of_eq {s : State} {q : Seq} (h : s.seq = q) : s.setSeq q = s := by
  rw [← h]
  rfl

/-- R170: in state `s`, with `seq` Ready, the command passes its checks, and its steps issue these primitives in their
order, none of them a Delay; a read-eeprom, which also receives data, is not of this kind. -/
structure RunsScript (i : Instr) (s : State) (ps : List Prim) : Prop where
  ready : s.seq = .ready
  exec_eq : exec i s = .next (runCommand i s)
  not_bulk : ∀ m a b p, i ≠ .readEeprom m a b p
  prim : ∀ k, primOf s i k = ps[k]?
  no_delay : (ps.any fun p => isDelay (some p)) = false

/-- The state in which a command that started in `s` has issued its primitives up to step `k`, whose response is
outstanding. -/
def State.waitingAt (s : State) (i : Instr) (ps : List Prim) (k : Nat) : State :=
  { s with seq := .step i k, trace := s.trace ++ (ps.take (k + 1)).map .issued }

section
variable {i : Instr} {s : State} {ps : List Prim}

/-- R21: what is issued at a step does not change while the command runs. -/
theorem RunsScript.prim_waitingAt (h : RunsScript i s ps) (j k : Nat) :
    primOf (s.waitingAt i ps j) i k = ps[k]? :=
  (primOf_congr rfl rfl rfl i k).trans (h.prim k)

/-- R21, R170: the transaction begins at step 0. -/
theorem RunsScript.enterStep_zero (h : RunsScript i s ps) (hps : 0 < ps.length) :
    enterStep i 0 s = s.waitingAt i ps 0 := by
  rw [enterStep_of_some ((h.prim 0).trans (List.getElem?_eq_getElem hps))]
  simp [State.waitingAt, State.setSeq, State.put, List.take_one, List.head?_eq_getElem?, hps]

/-- R170: ending the transaction leaves of it what it has issued and its result. -/
theorem RunsScript.endTransaction_waitingAt (h : RunsScript i s ps) (r : CmdResult) (k : Nat) :
    endTransaction r (s.waitingAt i ps k) =
      s.afterRun s.responses ((ps.take (k + 1)).map .issued ++ [.result r]) := by
  rw [endTransaction, releaseBulk_of_ne h.not_bulk (k := k) rfl]
  calc
    ((s.waitingAt i ps k).setSeq .ready).put (.result r)
      = (s.setSeq .ready).afterRun s.responses ((ps.take (k + 1)).map .issued ++ [.result r]) := by
        simp only [State.waitingAt, State.setSeq, State.put, State.afterRun, List.append_assoc]
    _ = s.afterRun s.responses ((ps.take (k + 1)).map .issued ++ [.result r]) := by rw [State.setSeq_of_eq h.ready]

/-- R244: no step waits for the delay collaborator. -/
theorem RunsScript.isDelay_waitingAt (h : RunsScript i s ps) (k : Nat) :
    isDelay (primOf (s.waitingAt i ps k) i k) = false := by
  rw [h.prim_waitingAt]
  cases hk : ps[k]? with
  | none => rfl
  | some p => exact Bool.eq_false_iff.mpr (List.any_eq_false.mp h.no_delay p (List.mem_of_getElem? hk))

/-- One response is taken by the outstanding primitive. -/
theorem RunsScript.drain_cons (h : RunsScript i s ps) (k : Nat) (r : Response) (rs : List Response) :
    drain (r :: rs) (s.waitingAt i ps k) = drain rs (respond r (s.waitingAt i ps k)) :=
  drain_cons_of_transport rfl (h.isDelay_waitingAt k) r rs

/-- R21: an Ok before the last primitive issues the next one. -/
theorem RunsScript.drain_ok (h : RunsScript i s ps) {k : Nat} (hk : k + 1 < ps.length) (opcode : Byte)
    (data : List Byte) (rs : List Response) :
    drain (.ok opcode data :: rs) (s.waitingAt i ps k) = drain rs (s.waitingAt i ps (k + 1)) := by
  have hnext := (h.prim_waitingAt k (k + 1)).trans (List.getElem?_eq_getElem hk)
  have htake : ps.take (k + 1 + 1) = ps.take (k + 1) ++ [ps[k + 1]] := List.take_succ_eq_append_getElem hk
  rw [h.drain_cons, respond_of_ok (cmd := i) (k := k) rfl, advanceOk_of_ne h.not_bulk, enterStep_of_some hnext]
  rw [State.waitingAt, State.waitingAt, htake, List.map_append, ← List.append_assoc]
  rfl

/-- R10: an Ok to the last primitive ends the transaction successfully. -/
theorem RunsScript.drain_last (h : RunsScript i s ps) {k : Nat} (hk : k + 1 = ps.length) (opcode : Byte)
    (data : List Byte) (rs : List Response) :
    drain (.ok opcode data :: rs) (s.waitingAt i ps k) = s.afterRun rs (ps.map .issued ++ [.result .ok]) := by
  have hnone := (h.prim_waitingAt k (k + 1)).trans (List.getElem?_eq_none hk.ge)
  rw [h.drain_cons, respond_of_ok (cmd := i) (k := k) rfl, advanceOk_of_ne h.not_bulk, enterStep_of_none hnone, finish,
    h.endTransaction_waitingAt, List.take_of_length_le hk.ge]
  exact drain_of_ready (s := s.afterRun _ _) h.ready rs

/-- R10, R170: a failure ends the transaction at once with TransportError at its step. -/
theorem RunsScript.drain_fail (h : RunsScript i s ps) (k : Nat) (kind : FailKind) (rs : List Response) :
    drain (.fail kind :: rs) (s.waitingAt i ps k) =
      s.afterRun rs ((ps.take (k + 1)).map .issued ++ [.result (.error (.transport kind k))]) := by
  rw [h.drain_cons, respond_of_fail (cmd := i) (k := k) rfl, raise, h.endTransaction_waitingAt]
  exact drain_of_ready (s := s.afterRun _ _) h.ready rs

/-- The responses Ok, each with the opcode and data that it carries. -/
def okResponses (oks : List (Byte × List Byte)) : List Response := oks.map fun r => .ok r.1 r.2

/-- R21: as many Oks as there are primitives to come lead that many steps on. -/
theorem RunsScript.drain_oks (h : RunsScript i s ps) (oks : List (Byte × List Byte)) (rs : List Response) :
    ∀ k, k + oks.length < ps.length →
      drain (okResponses oks ++ rs) (s.waitingAt i ps k) = drain rs (s.waitingAt i ps (k + oks.length)) := by
  induction oks with
  | nil => exact fun _ _ => rfl
  | cons r oks ih =>
    intro k hk
    rw [List.length_cons] at hk
    calc
      drain (okResponses (r :: oks) ++ rs) (s.waitingAt i ps k)
        = drain (okResponses oks ++ rs) (s.waitingAt i ps (k + 1)) := h.drain_ok (by omega) r.1 r.2 _
      _ = drain rs (s.waitingAt i ps (k + 1 + oks.length)) := ih (k + 1) (by omega)
      _ = drain rs (s.waitingAt i ps (k + (r :: oks).length)) := by
        rw [List.length_cons, Nat.add_right_comm, Nat.add_assoc]

/-- R170: fewer Oks than primitives lead the command to the step of the first response that is not among them. -/
theorem RunsScript.exec_oks (h : RunsScript i s ps) {oks : List (Byte × List Byte)} {rs : List Response}
    (hlen : oks.length < ps.length) (hr : s.responses = okResponses oks ++ rs) :
    exec i s = .next (drain rs (s.waitingAt i ps oks.length)) := by
  rw [h.exec_eq, runCommand, h.enterStep_zero (by omega), hr, h.drain_oks oks rs 0 (by omega), Nat.zero_add]

/-- R10, R170: with an Ok for each primitive the command issues them all and returns Ok. -/
theorem RunsScript.returns (h : RunsScript i s ps) (oks : List (Byte × List Byte)) {opcode : Byte} {data : List Byte}
    {rest : List Response} (hlen : oks.length + 1 = ps.length)
    (hr : s.responses = okResponses oks ++ .ok opcode data :: rest) :
    exec i s = .next (s.afterRun rest (ps.map .issued ++ [.result .ok])) := by
  rw [h.exec_oks (by omega) hr, h.drain_last hlen]

/-- R170, R242: a failure at a step raises TransportError there, with the later primitives unissued. -/
theorem RunsScript.raises (h : RunsScript i s ps) (oks : List (Byte × List Byte)) {kind : FailKind}
    {rest : List Response} (hlen : oks.length < ps.length) (hr : s.responses = okResponses oks ++ .fail kind :: rest) :
    exec i s = .next (s.afterRun rest
      ((ps.take (oks.length + 1)).map .issued ++ [.result (.error (.transport kind oks.length))])) := by
  rw [h.exec_oks hlen hr, h.drain_fail]

/-- R21, R301, log 1: with a response missing the command waits at the step that needs it. -/
theorem RunsScript.waits (h : RunsScript i s ps) (oks : List (Byte × List Byte)) (hlen : oks.length < ps.length)
    (hr : s.responses = okResponses oks) :
    exec i s = .next { s.afterRun [] ((ps.take (oks.length + 1)).map .issued) with seq := .step i oks.length } :=
  h.exec_oks hlen (hr.trans (List.append_nil _).symm)

end

/-! ### One, two and three primitives -/

theorem RunsScript.runsOnePrimitive {i : Instr} {s : State} {p : Prim} (h : RunsScript i s [p]) :
    RunsOnePrimitive i s p :=
  ⟨fun _ _ _ hr => h.returns [] rfl hr, fun _ _ hr => h.raises [] Nat.zero_lt_one hr,
    fun hr => h.waits [] Nat.zero_lt_one hr⟩

theorem RunsScript.runsTwoPrimitives {i : Instr} {s : State} {p q : Prim} (h : RunsScript i s [p, q]) :
    RunsTwoPrimitives i s p q :=
  ⟨fun o0 d0 _ _ _ hr => h.returns [(o0, d0)] rfl hr, fun _ _ hr => h.raises [] (by simp) hr,
    fun o0 d0 _ _ hr => h.raises [(o0, d0)] (by simp) hr, fun hr => h.waits [] (by simp) hr,
    fun o0 d0 hr => h.waits [(o0, d0)] (by simp) hr⟩

theorem RunsScript.runsBracket {i : Instr} {s : State} {m op : Byte} {payload : List Byte}
    (h : RunsScript i s (bracket m op payload)) : RunsBracket i s m op payload := by
  intro o0 o1 o2 d0 d1 d2 kind rest
  have hlen : (bracket m op payload).length = 3 := rfl
  exact ⟨h.returns [(o0, d0), (o1, d1)] hlen.symm, h.raises [] (by simp [hlen]),
    h.raises [(o0, d0)] (by simp [hlen]), h.raises [(o0, d0), (o1, d1)] (by simp [hlen]),
    h.waits [] (by simp [hlen]), h.waits [(o0, d0)] (by simp [hlen]), h.waits [(o0, d0), (o1, d1)] (by simp [hlen])⟩

/-- R263: with `seq` Ready, a command whose meaning raises is rejected. -/
theorem rejects_of_raise {i : Instr} {s : State} {e : CmdError} (hseq : s.seq = .ready)
    (h : exec i s = .next (raise e s)) : Rejects i s e :=
  h.trans (congrArg _ (endTransaction_of_ready hseq _))

/-! ### The values and the words -/

/-- R90, R172: the word of a layout is its command. -/
theorem commandInstr_of_layout {w : List Byte} {i : Instr} (h : CommandLayout w i) (s : State) :
    commandInstr s w = i := h.decodeCommand_eq

/-- R28, R176: a known module code is a value of the map MODULE_TABLE. -/
theorem knownModule_eq_true_iff (rom : Rom) (m : Byte) :
    knownModule rom m = true ↔ ∃ name, rom.moduleTable.lookup name = some m := by
  simp only [knownModule, List.any_eq_true, Bool.and_eq_true, decide_eq_true_eq]
  constructor
  · rintro ⟨entry, -, -, hlookup⟩
    exact ⟨entry.1, hlookup⟩
  · rintro ⟨name, hlookup⟩
    obtain ⟨before, after, htable, -⟩ := List.lookup_eq_some_iff.mp hlookup
    exact ⟨(name, m), by simp [htable], rfl, hlookup⟩

/-- R182: the low byte of a field's unsigned value. -/
theorem lowByte_eq_ofNat (v : Word32) : lowByte v = BitVec.ofNat 8 (v.toNat % 256) := by
  apply BitVec.eq_of_toNat_eq
  simp [lowByte]

/-- R177: the low byte of a field's signed value. -/
theorem lowByte_eq_ofInt (v : Word32) : lowByte v = BitVec.ofInt 8 v.toInt := by
  apply BitVec.eq_of_toNat_eq
  rw [lowByte, BitVec.extractLsb'_toNat, BitVec.toNat_ofInt, BitVec.toInt_eq_toNat_cond]
  split <;> omega

/-- R179: without the offset byte the payload is the text and its attribute block. -/
theorem textPayload_of_no_offset {ps : Params} (h : ps.offsetPrefix = false) (offset : Byte) (text : List Byte) :
    textPayload ps offset text = text ++ List.replicate text.length 0x00 := by
  simp [textPayload, h]

/-- R8, R179: under `display_offset_prefix` the offset byte comes first. -/
theorem textPayload_of_offset {ps : Params} (h : ps.offsetPrefix = true) (offset : Byte) (text : List Byte) :
    textPayload ps offset text = [offset] ++ text ++ List.replicate text.length 0x00 := by
  simp [textPayload, h]

/-! ### The frequency step -/

/-- R184: the step before the base is taken off: the quotient, or its successor above the half and at a tie with an odd
quotient. -/
theorem roundStep_cases (hz : Nat) :
    (roundStep hz = hz / 6250 ∧ (2 * (hz % 6250) < 6250 ∨ 2 * (hz % 6250) = 6250 ∧ hz / 6250 % 2 = 0)) ∨
      (roundStep hz = hz / 6250 + 1 ∧ (6250 < 2 * (hz % 6250) ∨ 2 * (hz % 6250) = 6250 ∧ hz / 6250 % 2 = 1)) := by
  have hround : roundStep hz =
      if 2 * (hz % 6250) < 6250 then hz / 6250
      else if 6250 < 2 * (hz % 6250) then hz / 6250 + 1
      else if hz / 6250 % 2 = 0 then hz / 6250
      else hz / 6250 + 1 := rfl
  obtain hlow | htie | hhigh := lt_trichotomy (2 * (hz % 6250)) 6250
  · exact .inl ⟨by rw [hround, if_pos hlow], .inl hlow⟩
  · rw [htie, if_neg (lt_irrefl _), if_neg (lt_irrefl _)] at hround
    obtain heven | hodd := Nat.mod_two_eq_zero_or_one (hz / 6250)
    · exact .inl ⟨by rw [hround, if_pos heven], .inr ⟨htie, heven⟩⟩
    · exact .inr ⟨by rw [hround, if_neg (by omega)], .inr ⟨htie, hodd⟩⟩
  · exact .inr ⟨by rw [hround, if_neg hhigh.not_gt, if_pos hhigh], .inl hhigh⟩

/-- R184, R54: the two bytes of a 16-bit word. -/
theorem toNat_bytes16 (w : BitVec 16) : (w.extractLsb' 8 8).toNat * 256 + (w.extractLsb' 0 8).toNat = w.toNat := by
  simp only [BitVec.extractLsb'_toNat, Nat.shiftRight_eq_div_pow]
  omega

/-- R184: the high and the low byte are the step modulo 2^16. -/
theorem freqBytes_eq (hz : Nat) : ((freqHi hz).toNat * 256 + (freqLo hz).toNat : Int) = freqStep hz % 65536 := by
  have hbytes : (freqHi hz).toNat * 256 + (freqLo hz).toNat = (freqWord hz).toNat := toNat_bytes16 (freqWord hz)
  have hword : (freqWord hz).toNat = (freqStep hz % 65536).toNat := BitVec.toNat_ofInt (freqStep hz)
  omega

/-- Settles O12: the two cases of `roundStep_cases`, and `freqBytes_eq` for the bytes. -/
theorem frequencyStepRounding : Obligations.FrequencyStepRounding := by
  intro hz
  dsimp only
  have hlt := hz.isLt
  have hstep : freqStep hz.toNat = (roundStep hz.toNat : Int) - 60000 := rfl
  have hround := roundStep_cases hz.toNat
  refine ⟨?_, ?_, ?_, ?_, ?_, ?_, freqBytes_eq hz.toNat⟩ <;> omega

/-! ### The commands without a check -/

/-- Settles O25: the one primitive is T_SCAN as a frame. -/
theorem enterScanCommand : Obligations.EnterScanCommand := by
  refine ⟨commandInstr_of_layout .enterScan, fun s hop hseq => RunsScript.runsOnePrimitive ?_⟩
  exact ⟨hseq, whenOperational_of_operational hop _, nofun, fun _ => rfl, rfl⟩

/-- Settles O26: the one primitive is T_RESET as a frame. -/
theorem resetCommand : Obligations.ResetCommand := by
  refine ⟨commandInstr_of_layout .reset, fun s hop hseq => RunsScript.runsOnePrimitive ?_⟩
  exact ⟨hseq, whenOperational_of_operational hop _, nofun, fun _ => rfl, rfl⟩

/-- Settles O29: the word, the frame, and row 1 of the outer rows for the frame as a window. -/
theorem sendButtonCommand : Obligations.SendButtonCommand := by
  refine ⟨fun s code val => commandInstr_of_layout (.sendButton code val) s,
    fun s code val hop hseq => RunsScript.runsOnePrimitive ?_, fun s code val tail hmode hrow => ?_⟩
  · exact ⟨hseq, whenOperational_of_operational hop _, nofun, fun _ => rfl, rfl⟩
  · have hclass := windowInstr_of_row hmode hrow rfl code val tail
    rw [hclass, outerClass]
    split
    · exact .inr rfl
    · exact .inl rfl

/-- Settles O32: the id and the level go into the frame as they are. -/
theorem illuminationLevelCommand : Obligations.IlluminationLevelCommand := by
  refine ⟨fun s id level => commandInstr_of_layout (.illumLevel id level) s,
    fun s id level hop hseq => RunsScript.runsOnePrimitive ?_⟩
  exact ⟨hseq, whenOperational_of_operational hop _, nofun, fun _ => rfl, rfl⟩

/-- Settles O33: the low byte is the value modulo 256. -/
theorem genericEventCommand : Obligations.GenericEventCommand := by
  refine ⟨fun s id b3 b2 b1 b0 => commandInstr_of_layout (.genericEvent id b3 b2 b1 b0) s,
    fun s id value hop hseq => RunsScript.runsOnePrimitive ?_⟩
  rw [← lowByte_eq_ofNat]
  exact ⟨hseq, whenOperational_of_operational hop _, nofun, fun _ => rfl, rfl⟩

/-- Settles O34: the model tests for a zero flag, the statement for a nonzero one. -/
theorem audioEnableCommand : Obligations.AudioEnableCommand := by
  refine ⟨fun s flag => commandInstr_of_layout (.audioEnable flag) s,
    fun s flag hop hseq => RunsScript.runsOnePrimitive ?_⟩
  rw [ite_not]
  exact ⟨hseq, whenOperational_of_operational hop _, nofun, fun _ => rfl, rfl⟩

/-- Settles O35: `freqHi` and `freqLo`, with `freqBytes_eq`. -/
theorem setFrequencyCommands : Obligations.SetFrequencyCommands := by
  refine ⟨fun s b3 b2 b1 b0 => ⟨commandInstr_of_layout (.setRxFreq b3 b2 b1 b0) s,
    commandInstr_of_layout (.setTxFreq b3 b2 b1 b0) s⟩, fun s hz hop hseq =>
    ⟨freqHi hz.toNat, freqLo hz.toNat, freqBytes_eq hz.toNat, RunsScript.runsOnePrimitive ?_,
      RunsScript.runsOnePrimitive ?_⟩⟩
  · exact ⟨hseq, whenOperational_of_operational hop _, nofun, fun _ => rfl, rfl⟩
  · exact ⟨hseq, whenOperational_of_operational hop _, nofun, fun _ => rfl, rfl⟩

/-! ### The commands with a check -/

/-- R176: the module code must be known. -/
theorem exec_enterSub {s : State} (hop : s.op = .operational) (m : Byte) :
    exec (.enterSub m) s =
      .next (if knownModule s.cfg m then runCommand (.enterSub m) s else raise (.moduleCode m) s) := by
  unfold exec execEnterSub
  exact whenOperational_of_operational hop _

/-- R177: the channel must be in range. -/
theorem exec_setChannel {s : State} (hop : s.op = .operational) (ch : Word32) :
    exec (.setChannel ch) s =
      .next (if 0 ≤ ch.toInt ∧ ch.toInt < 255 then runCommand (.setChannel ch) s
        else raise (.channel ch.toInt) s) := by
  unfold exec execSetChannel
  exact whenOperational_of_operational hop _

/-- R179: the text must not be too long. -/
theorem exec_displayText {s : State} (hop : s.op = .operational) (offset : Byte) (text : List Byte) :
    exec (.displayText offset text) s =
      .next (if text.length ≤ 14 then runCommand (.displayText offset text) s
        else raise (.textLength text.length) s) := by
  unfold exec execDisplayText
  exact whenOperational_of_operational hop _

/-- R180: a numeric id passes, and a name that is a key of LAMP_TABLE. -/
theorem exec_lampControl_of_some {s : State} {lamp : Lamp} {id : Byte} (hop : s.op = .operational)
    (hid : lampId s.cfg lamp = some id) (fn : Byte) :
    exec (.lampControl lamp fn) s = .next (runCommand (.lampControl lamp fn) s) := by
  unfold exec execLampControl
  refine (whenOperational_of_operational hop _).trans ?_
  cases lamp with
  | byId id' => rfl
  | byName name =>
    rw [lampId] at hid
    simp only [hid]

/-- R180: a name that is no key raises LookupError LampName. -/
theorem exec_lampControl_of_none {s : State} {name : Symbol} (hop : s.op = .operational)
    (hname : s.cfg.lampTable.lookup name = none) (fn : Byte) :
    exec (.lampControl (.byName name) fn) s = .next (raise (.lampName name) s) := by
  unfold exec execLampControl
  refine (whenOperational_of_operational hop _).trans ?_
  simp only [hname]

/-- Settles O27: the check is `knownModule`. -/
theorem enterSubCommand : Obligations.EnterSubCommand := by
  refine ⟨fun s m => commandInstr_of_layout (.enterSub m) s, fun s m hop hseq => ?_⟩
  rw [← knownModule_eq_true_iff]
  refine ⟨fun h => RunsScript.runsOnePrimitive ⟨hseq, ?_, nofun, fun _ => rfl, rfl⟩,
    fun h => rejects_of_raise hseq ?_⟩
  · rw [exec_enterSub hop, if_pos h]
  · rw [exec_enterSub hop, if_neg h]

/-- Settles O28: the check is the range, and the low byte of a channel is the channel as a byte. -/
theorem setChannelCommand : Obligations.SetChannelCommand := by
  refine ⟨fun s b3 b2 b1 b0 => commandInstr_of_layout (.setChannel b3 b2 b1 b0) s, fun s ch hop hseq => ?_⟩
  rw [← lowByte_eq_ofInt]
  refine ⟨fun hlow hhigh => RunsScript.runsTwoPrimitives ⟨hseq, ?_, nofun, fun _ => rfl, rfl⟩,
    fun h => rejects_of_raise hseq ?_⟩
  · rw [exec_setChannel hop, if_pos ⟨hlow, hhigh⟩]
  · rw [exec_setChannel hop, if_neg h]

/-- Settles O30: the check is the text's length; the parameter decides the payload. -/
theorem displayTextCommand : Obligations.DisplayTextCommand := by
  refine ⟨fun s offset n text hlen hascii => ?_, fun s offset text hop hseq => ?_⟩
  · have hall : text.all isAscii = true := by simpa [isAscii] using hascii
    exact commandInstr_of_layout (.displayText offset n text hlen hall) s
  · have hbracket (h : text.length ≤ 14) : RunsBracket (.displayText offset text) s s.cfg.textModule s.cfg.textOpcode
        (textPayload s.params offset text) :=
      RunsScript.runsBracket ⟨hseq, by rw [exec_displayText hop, if_pos h], nofun, fun _ => rfl, rfl⟩
    exact ⟨fun h hplain => textPayload_of_no_offset hplain offset text ▸ hbracket h,
      fun h hoffset => textPayload_of_offset hoffset offset text ▸ hbracket h,
      fun h => rejects_of_raise hseq (by rw [exec_displayText hop, if_neg h.not_ge])⟩

/-- R180: a lamp operand with an id, its own or its name's, runs the bracket with the payload of that id. -/
theorem lampControl_runsBracket {s : State} {lamp : Lamp} {id : Byte} (fn : Byte) (hop : s.op = .operational)
    (hseq : s.seq = .ready) (hid : lampId s.cfg lamp = some id) :
    RunsBracket (.lampControl lamp fn) s s.cfg.lampModule s.cfg.lampOpcode (lampPayload s.params id fn) := by
  have hsteps : lampControlSteps s.cfg s.params lamp fn =
      bracket s.cfg.lampModule s.cfg.lampOpcode (lampPayload s.params id fn) := by
    simp only [lampControlSteps, hid]
  exact RunsScript.runsBracket
    ⟨hseq, exec_lampControl_of_some hop hid fn, nofun, fun k => congrArg (·[k]?) hsteps, rfl⟩

/-- Settles O31: `lampControl_runsBracket` for both operands; an unresolved name raises. -/
theorem lampControlCommand : Obligations.LampControlCommand :=
  ⟨fun s id fn => commandInstr_of_layout (.lampId id fn) s,
    fun s n fn name hlen => commandInstr_of_layout (.lampName n fn name hlen) s,
    fun _ _ fn _ hop hseq => ⟨lampControl_runsBracket fn hop hseq rfl, fun hname =>
      lampControl_runsBracket fn hop hseq hname, fun hname =>
      rejects_of_raise hseq (exec_lampControl_of_none hop hname fn)⟩⟩

end Sys2Proof.Machine

/-! PROOFS of the bulk read statements (spec/43_bulk_read.md). One law says what each response does at each step of a
read-eeprom, the good reply and the failing one among them; a run is then the preamble's four responses, two responses
for each chunk, by induction on the chunks, and one for LeaveSub. What every run reports, whatever its responses, is
kept from response to response beside the registers' invariant. -/

namespace Sys2Proof.Machine

section
variable {m : Byte} {start endAddr : Word32} {pr : Byte} {s : State} {k : Nat}

/-! ### The checks before the first primitive -/

/-- R210: the range is checked before the end, and both before the transfer. -/
theorem exec_readEeprom (hop : s.op = .operational) (m : Byte) (start endAddr : Word32) (pr : Byte) :
    exec (.readEeprom m start endAddr pr) s =
      .next (if ¬ start.toNat < endAddr.toNat then raise (.bulkRange start.toNat endAddr.toNat) s
        else if ¬ endAddr.toNat ≤ 2 ^ 24 then raise (.bulkEnd endAddr.toNat) s
        else runCommand (.readEeprom m start endAddr pr) (loadBulk m start endAddr pr s)) := by
  unfold exec execReadEeprom
  exact whenOperational_of_operational hop _

/-- R170, R210: a valid range enters step 0 with the registers loaded and runs on the responses. -/
theorem exec_readEeprom_of_valid (hop : s.op = .operational) (hlt : start.toNat < endAddr.toNat)
    (hle : endAddr.toNat ≤ 2 ^ 24) (m pr : Byte) :
    exec (.readEeprom m start endAddr pr) s =
      .next (drain s.responses (enterStep (.readEeprom m start endAddr pr) 0 (loadBulk m start endAddr pr s))) := by
  rw [exec_readEeprom hop, if_neg (not_not.mpr hlt), if_neg (not_not.mpr hle)]
  rfl

/-! ### The steps -/

/-- R217: the table has the rows 0 to 7, each with its primitive. -/
theorem exists_primOf_readEeprom (hk : k ≤ 7) (s : State) :
    ∃ p, primOf s (.readEeprom m start endAddr pr) k = some p := by
  interval_cases k <;> exact ⟨_, rfl⟩

/-- R217, R244: row 3 is the one whose primitive is Delay. -/
theorem isDelay_readEeprom (s : State) (k : Nat) :
    isDelay (primOf s (.readEeprom m start endAddr pr) k) = decide (k = 3) := by
  match k with
  | 0 | 1 | 2 | 3 | 4 | 5 | 6 | 7 => rfl
  | _ + 8 => simp [primOf, readEepromPrim, isDelay]

theorem waitsForDelay_readEeprom (hs : s.seq = .step (.readEeprom m start endAddr pr) k) :
    waitsForDelay s = decide (k = 3) := by
  simp only [waitsForDelay, hs, isDelay_readEeprom]

theorem enterStep_readEeprom_seq (hk : k ≤ 7) (s : State) :
    (enterStep (.readEeprom m start endAddr pr) k s).seq = .step (.readEeprom m start endAddr pr) k := by
  obtain ⟨p, hp⟩ := exists_primOf_readEeprom hk s
  rw [enterStep_of_some hp]
  rfl

/-- R21: entering a row does not depend on the row that the command leaves. -/
theorem enterStep_readEeprom_setSeq (hk : k ≤ 7) (q : Seq) (s : State) :
    enterStep (.readEeprom m start endAddr pr) k (s.setSeq q) = enterStep (.readEeprom m start endAddr pr) k s := by
  obtain ⟨p, hp⟩ := exists_primOf_readEeprom hk s
  have hq : primOf (s.setSeq q) (.readEeprom m start endAddr pr) k = some p := hp
  rw [enterStep_of_some hp, enterStep_of_some hq]
  rfl

/-- R217: at every row but 6 and 7 an Ok leads to the next row. -/
theorem respond_ok_readEeprom (hs : s.seq = .step (.readEeprom m start endAddr pr) k) (h6 : k ≠ 6) (h7 : k ≠ 7)
    (o : Byte) (d : List Byte) :
    respond (.ok o d) s = enterStep (.readEeprom m start endAddr pr) (k + 1) s := by
  rw [respond_of_ok hs, advanceOk, advanceBulk]
  · exact h6
  · exact h7

/-- R215: at row 7 an Ok returns what has been read. -/
theorem respond_leaveSub (hs : s.seq = .step (.readEeprom m start endAddr pr) 7) (o : Byte) (d : List Byte) :
    respond (.ok o d) s = finish (.okBytes s.bulk.acc) s :=
  respond_of_ok hs o d

/-- R244: at row 3 Delay passes and leads to row 4. -/
theorem passDelay_readEeprom (hs : s.seq = .step (.readEeprom m start endAddr pr) 3) :
    passDelay s = enterStep (.readEeprom m start endAddr pr) 4 s :=
  passDelay_of_waiting hs rfl

/-- R244: at every other row there is nothing to pass. -/
theorem passDelay_readEeprom_of_ne (hs : s.seq = .step (.readEeprom m start endAddr pr) k) (h3 : k ≠ 3) :
    passDelay s = s :=
  passDelay_of_not_waiting ((waitsForDelay_readEeprom hs).trans (decide_eq_false h3))

/-! ### A reply -/

/-- R213: the opcode is checked first. -/
theorem checkReply_badOpcode {rom : Rom} {opcode : Byte} (h : opcode ≠ rom.eeReplyOpcode) (cur : Nat)
    (data : List Byte) : checkReply rom cur opcode data = some (.badOpcode cur opcode) :=
  if_pos h

/-- R213: the echoed address is checked second, also against a reply that is too short for it. -/
theorem checkReply_addressMismatch {cur : Nat} {data : List Byte}
    (h : data.length < 3 ∨ data.take 3 ≠ addr3 cur) (rom : Rom) :
    checkReply rom cur rom.eeReplyOpcode data = some (.addressMismatch cur (data.take 3)) := by
  rw [checkReply, if_neg (not_not.mpr rfl)]
  exact if_pos h

/-- An echo of an address has its three bytes. -/
theorem three_le_length_of_echo {cur : Nat} {data : List Byte} (h : data.take 3 = addr3 cur) : 3 ≤ data.length := by
  have hlen : (data.take 3).length = 3 := congrArg List.length h
  rw [List.length_take] at hlen
  omega

/-- R213: the number of data bytes is checked last. -/
theorem checkReply_lengthMismatch {cur : Nat} {data : List Byte} (hecho : data.take 3 = addr3 cur)
    (hlen : data.length - 3 ≠ 64) (rom : Rom) :
    checkReply rom cur rom.eeReplyOpcode data = some (.lengthMismatch cur (data.length - 3)) := by
  have hechoed : ¬ (data.length < 3 ∨ data.take 3 ≠ addr3 cur) :=
    not_or.mpr ⟨(three_le_length_of_echo hecho).not_gt, not_not.mpr hecho⟩
  rw [checkReply, if_neg (not_not.mpr rfl)]
  exact (if_neg hechoed).trans (if_pos hlen)

/-- R217: at row 6 an Ok is a reply. -/
theorem respond_reply (hs : s.seq = .step (.readEeprom m start endAddr pr) 6) (o : Byte) (d : List Byte) :
    respond (.ok o d) s = receiveChunk (.readEeprom m start endAddr pr) o d s :=
  respond_of_ok hs o d

/-- R213: a reply that fails a check raises. -/
theorem respond_bad_reply (hs : s.seq = .step (.readEeprom m start endAddr pr) 6) {opcode : Byte} {data : List Byte}
    {e : CmdError} (h : checkReply s.cfg s.bulk.cur opcode data = some e) :
    respond (.ok opcode data) s = raise e s := by
  rw [respond_reply hs, receiveChunk, h]

/-- R214, R217: a reply that passes the checks is accepted and leads to the next request, or to LeaveSub. -/
theorem respond_good_reply (hs : s.seq = .step (.readEeprom m start endAddr pr) 6) {opcode : Byte} {data : List Byte}
    (h : checkReply s.cfg s.bulk.cur opcode data = none) :
    respond (.ok opcode data) s =
      enterStep (.readEeprom m start endAddr pr) (if s.bulk.cur + 64 < s.bulk.endAddr then 5 else 7)
        (acceptChunk data s) := by
  obtain ⟨-, -, -, -, hbulk, -⟩ := acceptChunk_spec data s
  rw [respond_reply hs, receiveChunk, h]
  simp only [hbulk, Config.chunk]
  split <;> rfl

/-- R79, R213: the reply that echoes the chunk address and carries 64 bytes passes. -/
theorem checkReply_chunk {chunk : List Byte} (h : chunk.length = 64) (rom : Rom) (cur : Nat) :
    checkReply rom cur rom.eeReplyOpcode (addr3 cur ++ chunk) = none :=
  (checkReply_eq_none_iff _ _ _ _).mpr ⟨rfl, rfl, by simp [addr3, h, Config.chunk]⟩

/-- R212, R214: what accepting a good reply's chunk does. -/
theorem acceptChunk_chunk {chunk : List Byte} (h : chunk.length = 64) (s : State) :
    acceptChunk (addr3 s.bulk.cur ++ chunk) s = { s with
      bulk := { s.bulk with acc := s.bulk.acc ++ chunk, cur := s.bulk.cur + 64 }
      trace := s.trace ++ if s.bulk.progress then [.progress (BitVec.ofNat 24 s.bulk.cur)] else [] } := by
  have hslice : slice (addr3 s.bulk.cur ++ chunk) 3 (3 + Config.chunk) = chunk := by
    simp [slice, addr3, Config.chunk, h]
  unfold acceptChunk
  rw [hslice]
  cases s.bulk.progress <;> simp [State.setBulk, State.put, Config.chunk]

/-! ### A whole run -/

/-- R242: at a row whose primitive is the transport's, one response is taken. -/
theorem drain_cons_readEeprom (hs : s.seq = .step (.readEeprom m start endAddr pr) k) (h3 : k ≠ 3) (r : Response)
    (rs : List Response) : drain (r :: rs) s = drain rs (respond r s) :=
  drain_cons_of_transport hs ((isDelay_readEeprom s k).trans (decide_eq_false h3)) r rs

/-- R217: an Ok leads from one row of the preamble or from the request to the next row. -/
theorem drain_ok_enterStep (hk : k ≤ 5) (h3 : k ≠ 3) (o : Byte) (d : List Byte) (rs : List Response) (s : State) :
    drain (.ok o d :: rs) (enterStep (.readEeprom m start endAddr pr) k s) =
      drain rs (enterStep (.readEeprom m start endAddr pr) (k + 1)
        (enterStep (.readEeprom m start endAddr pr) k s)) := by
  have hs := enterStep_readEeprom_seq (m := m) (start := start) (endAddr := endAddr) (pr := pr) (k := k) (by omega) s
  rw [drain_cons_readEeprom hs h3, respond_ok_readEeprom hs (by omega) (by omega)]

/-- R244, log 3: the Ok that finds Delay outstanding is EnterSub's. -/
theorem drain_ok_delay (o : Byte) (d : List Byte) (rs : List Response) (s : State) :
    drain (.ok o d :: rs) (enterStep (.readEeprom m start endAddr pr) 3 s) =
      drain rs (enterStep (.readEeprom m start endAddr pr) 5
        (enterStep (.readEeprom m start endAddr pr) 4 (enterStep (.readEeprom m start endAddr pr) 3 s))) := by
  have hs := enterStep_readEeprom_seq (m := m) (start := start) (endAddr := endAddr) (pr := pr) (k := 3) (by omega) s
  rw [drain_cons_of_step hs, passDelay_readEeprom hs,
    respond_ok_readEeprom (enterStep_readEeprom_seq (k := 4) (by omega) _) (by decide) (by decide)]

/-- R211: four Ok carry the command through the preamble to the first request. -/
theorem drain_preamble (o0 o1 o2 o4 : Byte) (d0 d1 d2 d4 : List Byte) (rs : List Response) (s : State) :
    drain (.ok o0 d0 :: .ok o1 d1 :: .ok o2 d2 :: .ok o4 d4 :: rs) (enterStep (.readEeprom m start endAddr pr) 0 s) =
      drain rs (enterStep (.readEeprom m start endAddr pr) 5
        { s with trace := s.trace ++ preambleOut s.cfg s.bulk.modsel }) := by
  let cmd := Instr.readEeprom m start endAddr pr
  have hissued : enterStep cmd 4 (enterStep cmd 3 (enterStep cmd 2 (enterStep cmd 1 (enterStep cmd 0 s)))) =
      State.setSeq { s with trace := s.trace ++ preambleOut s.cfg s.bulk.modsel } (.step cmd 4) := by
    simp [cmd, enterStep, primOf, readEepromPrim, preambleOut, State.put, State.setSeq]
  rw [drain_ok_enterStep (by decide) (by decide), drain_ok_enterStep (by decide) (by decide),
    drain_ok_enterStep (by decide) (by decide), drain_ok_delay, hissued, enterStep_readEeprom_setSeq (by decide)]

/-! ### The chunks -/

/-- R218: the number of chunks is the one whose chunks reach the end of the range, the last of them beginning in it. -/
theorem chunkCount_eq_iff {a b n : Nat} (h : a < b) :
    chunkCount a b = n ↔ b ≤ a + 64 * n ∧ a + 64 * n < b + 64 := by
  simp only [chunkCount, Config.chunk]
  omega

/-- R53: below 2^24 an address is named by its three bytes. -/
theorem addr3_injective {a b : Nat} (ha : a < 2 ^ 24) (hb : b < 2 ^ 24) (h : addr3 a = addr3 b) : a = b := by
  simp only [addr3, List.cons.injEq, and_true] at h
  obtain ⟨hhigh, hmid, hlow⟩ := h
  rw [addr3_value ha, addr3_value hb, hhigh, hmid, hlow]

/-- R212, R214: the state with these chunks read, as at the next request or at LeaveSub, but for `seq`. -/
def State.afterChunks (s : State) (chunks : List (List Byte)) : State :=
  { s with
    bulk := { s.bulk with acc := s.bulk.acc ++ chunks.flatten, cur := s.bulk.cur + 64 * chunks.length }
    trace := s.trace ++ chunkOut s.cfg s.bulk.progress s.bulk.cur chunks }

@[simp] theorem State.afterChunks_cfg (s : State) (chunks : List (List Byte)) :
    (s.afterChunks chunks).cfg = s.cfg := rfl
@[simp] theorem State.afterChunks_endAddr (s : State) (chunks : List (List Byte)) :
    (s.afterChunks chunks).bulk.endAddr = s.bulk.endAddr := rfl

theorem State.afterChunks_cons (s : State) (c : List Byte) (cs : List (List Byte)) :
    s.afterChunks (c :: cs) = (s.afterChunks [c]).afterChunks cs := by
  simp [State.afterChunks, chunkOut, Config.chunk]
  omega

/-- R212 to R214: one chunk takes the Ok of its request and its reply, and leads to the next request, or to LeaveSub. -/
theorem drain_chunk {c : List Byte} (hc : c.length = 64) (rs : List Response) (s : State) :
    drain (.done :: .ok s.cfg.eeReplyOpcode (addr3 s.bulk.cur ++ c) :: rs)
        (enterStep (.readEeprom m start endAddr pr) 5 s) =
      drain rs (enterStep (.readEeprom m start endAddr pr) (if s.bulk.cur + 64 < s.bulk.endAddr then 5 else 7)
        (s.afterChunks [c])) := by
  let cmd := Instr.readEeprom m start endAddr pr
  let received := enterStep cmd 6 (enterStep cmd 5 s)
  have hseq : received.seq = .step cmd 6 := rfl
  have haccept : acceptChunk (addr3 s.bulk.cur ++ c) received = (s.afterChunks [c]).setSeq (.step cmd 6) := by
    rw [show s.bulk.cur = received.bulk.cur from rfl, acceptChunk_chunk hc]
    simp [received, cmd, enterStep, primOf, readEepromPrim, State.put, State.setSeq, State.afterChunks, chunkOut]
  calc
    drain (.done :: .ok s.cfg.eeReplyOpcode (addr3 s.bulk.cur ++ c) :: rs) (enterStep cmd 5 s)
      = drain (.ok s.cfg.eeReplyOpcode (addr3 s.bulk.cur ++ c) :: rs) received :=
        drain_ok_enterStep (by decide) (by decide) _ _ _ s
    _ = drain rs (respond (.ok s.cfg.eeReplyOpcode (addr3 s.bulk.cur ++ c)) received) :=
        drain_cons_readEeprom hseq (by decide) _ rs
    _ = drain rs (enterStep cmd (if s.bulk.cur + 64 < s.bulk.endAddr then 5 else 7)
          (acceptChunk (addr3 s.bulk.cur ++ c) received)) :=
        congrArg _ (respond_good_reply hseq (checkReply_chunk hc _ _))
    _ = drain rs (enterStep cmd (if s.bulk.cur + 64 < s.bulk.endAddr then 5 else 7) (s.afterChunks [c])) := by
        rw [haccept, enterStep_readEeprom_setSeq (by split <;> omega)]

/-- R212: the chunk loop, from the first request to LeaveSub, on a good reply for every chunk of the range. -/
theorem drain_chunks (chunks : List (List Byte)) (rs : List Response) : ∀ s : State, chunks ≠ [] →
    (∀ c ∈ chunks, c.length = 64) → s.bulk.endAddr ≤ s.bulk.cur + 64 * chunks.length →
    s.bulk.cur + 64 * chunks.length < s.bulk.endAddr + 64 →
    drain (chunkReplies s.cfg s.bulk.cur chunks ++ rs) (enterStep (.readEeprom m start endAddr pr) 5 s) =
      drain rs (enterStep (.readEeprom m start endAddr pr) 7 (s.afterChunks chunks)) := by
  induction chunks with
  | nil => exact fun _ hne => absurd rfl hne
  | cons c cs ih =>
    intro s _ hlen hreach hlast
    obtain ⟨hc, hcs⟩ := List.forall_mem_cons.mp hlen
    rw [List.length_cons] at hreach hlast
    refine (drain_chunk hc (chunkReplies s.cfg (s.bulk.cur + 64) cs ++ rs) s).trans ?_
    cases cs with
    | nil =>
      rw [if_neg (by simpa using hreach)]
      rfl
    | cons c' cs =>
      rw [List.length_cons] at hreach hlast
      rw [if_pos (by omega), State.afterChunks_cons s c (c' :: cs)]
      have hcur : (s.afterChunks [c]).bulk.cur = s.bulk.cur + 64 := rfl
      have hrest := ih (s.afterChunks [c]) (List.cons_ne_nil _ _) hcs
      rw [hcur, State.afterChunks_endAddr, State.afterChunks_cfg, List.length_cons] at hrest
      exact hrest (by omega) (by omega)

/-- R211, R241: `drain_preamble` for responses that carry no value. -/
theorem drain_preamble_done (rs : List Response) (s : State) :
    drain (List.replicate 4 .done ++ rs) (enterStep (.readEeprom m start endAddr pr) 0 s) =
      drain rs (enterStep (.readEeprom m start endAddr pr) 5
        { s with trace := s.trace ++ preambleOut s.cfg s.bulk.modsel }) :=
  drain_preamble 0x00 0x00 0x00 0x00 [] [] [] [] rs s

/-- R211, R212, R215: a whole read on good replies, with the registers loaded: it ends with the bytes, and leaves the
later responses. -/
theorem drain_goodReplies {chunks : List (List Byte)} (hne : chunks ≠ []) (hlen : ∀ c ∈ chunks, c.length = 64)
    (hreach : s.bulk.endAddr ≤ s.bulk.cur + 64 * chunks.length)
    (hlast : s.bulk.cur + 64 * chunks.length < s.bulk.endAddr + 64) (rest : List Response) :
    ∃ t, drain (List.replicate 4 .done ++ chunkReplies s.cfg s.bulk.cur chunks ++ [.done] ++ rest)
        (enterStep (.readEeprom m start endAddr pr) 0 s) = t ∧
      SameBlock s t ∧ t.seq = .ready ∧ t.responses = rest ∧
      t.trace = s.trace ++ (preambleOut s.cfg s.bulk.modsel ++ chunkOut s.cfg s.bulk.progress s.bulk.cur chunks ++
        [.issued .leaveSub, .result (.okBytes (s.bulk.acc ++ chunks.flatten))]) := by
  let cmd := Instr.readEeprom m start endAddr pr
  let entered : State := { s with trace := s.trace ++ preambleOut s.cfg s.bulk.modsel }
  let leaving := enterStep cmd 7 (entered.afterChunks chunks)
  let bytes := CmdResult.okBytes (s.bulk.acc ++ chunks.flatten)
  have hleaving : leaving.seq = .step cmd 7 := rfl
  have hblock : SameBlock s leaving := ⟨rfl, rfl, rfl, rfl, rfl⟩
  obtain ⟨hended, hready, htrace, -⟩ := endTransaction_spec bytes leaving
  refine ⟨{ finish bytes leaving with responses := rest }, ?_, hblock.trans hended, hready, rfl, ?_⟩
  · rw [List.append_assoc, List.append_assoc, drain_preamble_done]
    calc
      drain (chunkReplies s.cfg s.bulk.cur chunks ++ ([.done] ++ rest)) (enterStep cmd 5 entered)
        = drain (.done :: rest) leaving := drain_chunks chunks _ entered hne hlen hreach hlast
      _ = drain rest (respond .done leaving) := drain_cons_readEeprom hleaving (by decide) _ rest
      _ = drain rest (finish bytes leaving) := congrArg _ (respond_leaveSub hleaving _ _)
      _ = { finish bytes leaving with responses := rest } := drain_of_ready hready rest
  · have hissued : leaving.trace = s.trace ++ preambleOut s.cfg s.bulk.modsel ++
        chunkOut s.cfg s.bulk.progress s.bulk.cur chunks ++ [.issued .leaveSub] := rfl
    refine htrace.trans ?_
    simp only [hissued, List.append_assoc, List.cons_append, List.nil_append, bytes]

/-! ### What a whole run outputs -/

theorem primsOf_append (xs ys : List Output) : primsOf (xs ++ ys) = primsOf xs ++ primsOf ys :=
  List.filterMap_append

/-- R218: two primitives for each chunk. -/
theorem length_primsOf_chunkOut (rom : Rom) (progress : Bool) (chunks : List (List Byte)) :
    ∀ a, (primsOf (chunkOut rom progress a chunks)).length = 2 * chunks.length := by
  induction chunks with
  | nil => exact fun _ => rfl
  | cons c cs ih =>
    intro a
    have hshown : primsOf (if progress then [.progress (BitVec.ofNat 24 a)] else []) = [] := by
      cases progress <;> rfl
    rw [chunkOut, primsOf_append, primsOf_append, hshown, List.append_nil, List.length_append, ih, List.length_cons]
    simp only [primsOf, List.filterMap_cons, List.filterMap_nil, List.length_cons, List.length_nil]
    omega

/-- R213, R218: 64 bytes for each chunk. -/
theorem length_flatten_chunks {chunks : List (List Byte)} (h : ∀ c ∈ chunks, c.length = 64) :
    chunks.flatten.length = 64 * chunks.length := by
  rw [List.length_flatten, List.map_eq_replicate_iff.mpr h, List.sum_replicate, smul_eq_mul, Nat.mul_comm]

/-! ### Whole or nothing -/

theorem resultsOf_append (xs ys : List Output) : resultsOf (xs ++ ys) = resultsOf xs ++ resultsOf ys :=
  List.filterMap_append

theorem wholeOrNothing_append {xs ys : List Output} (hx : WholeOrNothing start endAddr xs)
    (hy : WholeOrNothing start endAddr ys) : WholeOrNothing start endAddr (xs ++ ys) := by
  unfold WholeOrNothing
  rw [resultsOf_append]
  exact List.forall_mem_append.mpr ⟨hx, hy⟩

/-- Outputs without a result report no part of the range. -/
theorem wholeOrNothing_of_no_result {out : List Output} (h : resultsOf out = []) :
    WholeOrNothing start endAddr out := by
  unfold WholeOrNothing
  rw [h]
  exact List.forall_mem_nil _

theorem wholeOrNothing_error (e : CmdError) : WholeOrNothing start endAddr [.result (.error e)] :=
  List.forall_mem_singleton.mpr (.inl ⟨e, rfl⟩)

theorem wholeOrNothing_okBytes {data : List Byte} (h : data.length = 64 * chunkCount start.toNat endAddr.toNat) :
    WholeOrNothing start endAddr [.result (.okBytes data)] :=
  List.forall_mem_singleton.mpr (.inr ⟨data, rfl, h⟩)

/-- R218: at LeaveSub the registers hold 64 bytes for each chunk of the range. -/
theorem length_acc_of_bulkLegal {b : BulkRegs} (h : bulkLegal b m start endAddr pr 7) :
    b.acc.length = 64 * chunkCount start.toNat endAddr.toNat := by
  obtain ⟨-, hlt, -, hend, -, -, hcur, ⟨n, hacc⟩, -, -, hleave⟩ := h
  obtain ⟨hreach, hlast⟩ := hleave rfl
  simp only [Config.chunk] at hacc hlast
  rw [(chunkCount_eq_iff (n := n) hlt).mpr ⟨by omega, by omega⟩, hacc]

/-- R216: from `s` to `t` only the whole range or an error was reported, and in `t` the command has ended or is the
read-eeprom still. -/
def ReadsOn (m : Byte) (start endAddr : Word32) (pr : Byte) (s t : State) : Prop :=
  (t.seq = .ready ∨ ∃ k, t.seq = .step (.readEeprom m start endAddr pr) k) ∧
    ∃ out : List Output, t.trace = s.trace ++ out ∧ WholeOrNothing start endAddr out

theorem ReadsOn.refl (h : s.seq = .ready ∨ ∃ k, s.seq = .step (.readEeprom m start endAddr pr) k) :
    ReadsOn m start endAddr pr s s :=
  ⟨h, [], (List.append_nil _).symm, wholeOrNothing_of_no_result rfl⟩

theorem ReadsOn.trans {t u : State} (h : ReadsOn m start endAddr pr s t) (k : ReadsOn m start endAddr pr t u) :
    ReadsOn m start endAddr pr s u := by
  obtain ⟨-, out, ht, hout⟩ := h
  obtain ⟨hseq, out', hu, hout'⟩ := k
  exact ⟨hseq, out ++ out', by rw [hu, ht, List.append_assoc], wholeOrNothing_append hout hout'⟩

theorem endTransaction_readsOn {r : CmdResult} (h : WholeOrNothing start endAddr [.result r]) (s : State) :
    ReadsOn m start endAddr pr s (endTransaction r s) := by
  obtain ⟨-, hseq, htrace, -⟩ := endTransaction_spec r s
  exact ⟨.inl hseq, _, htrace, h⟩

theorem enterStep_readsOn (hk : k ≤ 7) (s : State) :
    ReadsOn m start endAddr pr s (enterStep (.readEeprom m start endAddr pr) k s) := by
  obtain ⟨p, hp⟩ := exists_primOf_readEeprom hk s
  refine ⟨.inr ⟨k, enterStep_readEeprom_seq hk s⟩, [.issued p], ?_, wholeOrNothing_of_no_result rfl⟩
  rw [enterStep_of_some hp]
  rfl

/-- R213, R214: a chunk that is accepted reports progress, if anything. -/
theorem acceptChunk_readsOn (hs : s.seq = .step (.readEeprom m start endAddr pr) k) (data : List Byte) :
    ReadsOn m start endAddr pr s (acceptChunk data s) := by
  obtain ⟨-, -, hseq, -, -, htrace⟩ := acceptChunk_spec data s
  refine ⟨.inr ⟨k, hseq.trans hs⟩, _, htrace, wholeOrNothing_of_no_result ?_⟩
  cases s.bulk.progress <;> rfl

/-- R216, R217: a response to a legal step raises, enters a row, or at row 7 returns the whole range. -/
theorem respond_readsOn (hs : s.seq = .step (.readEeprom m start endAddr pr) k)
    (hb : bulkLegal s.bulk m start endAddr pr k) (r : Response) : ReadsOn m start endAddr pr s (respond r s) := by
  cases r with
  | fail kind =>
    rw [respond_of_fail hs]
    exact endTransaction_readsOn (wholeOrNothing_error _) s
  | ok o d =>
    have hle : k ≤ 7 := hb.1
    by_cases h7 : k = 7
    · subst h7
      rw [respond_leaveSub hs]
      exact endTransaction_readsOn (wholeOrNothing_okBytes (length_acc_of_bulkLegal hb)) s
    · by_cases h6 : k = 6
      · subst h6
        cases hcheck : checkReply s.cfg s.bulk.cur o d with
        | some e =>
          rw [respond_bad_reply hs hcheck]
          exact endTransaction_readsOn (wholeOrNothing_error e) s
        | none =>
          rw [respond_good_reply hs hcheck]
          exact (acceptChunk_readsOn hs d).trans (enterStep_readsOn (by split <;> omega) _)
      · rw [respond_ok_readEeprom hs h6 h7]
        exact enterStep_readsOn (by omega) s

/-- R244: a Delay that passes enters row 4. -/
theorem passDelay_readsOn (hs : s.seq = .step (.readEeprom m start endAddr pr) k) :
    ReadsOn m start endAddr pr s (passDelay s) := by
  by_cases h3 : k = 3
  · subst h3
    rw [passDelay_readEeprom hs]
    exact enterStep_readsOn (by decide) s
  · rw [passDelay_readEeprom_of_ne hs h3]
    exact .refl (.inr ⟨k, hs⟩)

/-- What a read-eeprom keeps from response to response: its registers are legal, and nothing in part was reported. -/
theorem drain_readsOn (rs : List Response) (hlegal : SeqLegal s)
    (hs : s.seq = .ready ∨ ∃ k, s.seq = .step (.readEeprom m start endAddr pr) k) :
    ReadsOn m start endAddr pr s (drain rs s) := by
  suffices hkept : SeqLegal (drain rs s) ∧ ReadsOn m start endAddr pr s (drain rs s) from hkept.2
  refine drain_induction (fun t => SeqLegal t ∧ ReadsOn m start endAddr pr s t) ?_ ?_ ?_ rs s ⟨hlegal, .refl hs⟩
  · rintro r t ⟨ht, hreads⟩
    refine ⟨respond_seqLegal r ht, ?_⟩
    obtain hready | ⟨k, hk⟩ := hreads.1
    · rwa [respond, hready]
    · exact hreads.trans (respond_readsOn hk (ht _ k hk).2 r)
  · rintro t ⟨ht, hreads⟩
    refine ⟨passDelay_seqLegal ht, ?_⟩
    obtain hready | ⟨k, hk⟩ := hreads.1
    · rwa [passDelay, hready]
    · exact hreads.trans (passDelay_readsOn hk)
  · rintro t rs ⟨ht, hreads⟩
    exact ⟨ht.of_same rfl rfl rfl rfl, hreads⟩

/-- R216: a read-eeprom that starts. -/
theorem exec_readEeprom_readsOn {t : State} (h : exec (.readEeprom m start endAddr pr) s = .next t) :
    ReadsOn m start endAddr pr s t := by
  obtain ⟨e, rfl⟩ | ⟨hne, -⟩ | ⟨_, _, _, _, hi, rfl, hlt, hle⟩ := exec_command_cases rfl h
  · exact endTransaction_readsOn (wholeOrNothing_error e) s
  · exact absurd rfl (hne m start endAddr pr)
  · cases hi
    have hload : bulkLegal (loadBulk m start endAddr pr s).bulk m start endAddr pr 0 :=
      bulkLegal_loadBulk pr s hlt hle
    exact (enterStep_readsOn (by decide) (loadBulk m start endAddr pr s)).trans
      (drain_readsOn _ (enterStep_seqLegal fun hsome => ⟨hsome, hload⟩)
        (.inr ⟨0, enterStep_readEeprom_seq (by decide) _⟩))

end

/-! ### The statements -/

/-- Settles O37: the word's layout, the two checks of `exec_readEeprom`, and step 0 with no response. -/
theorem bulkReadValidation : Obligations.BulkReadValidation := by
  refine ⟨fun s m s3 s2 s1 s0 e3 e2 e1 e0 pr =>
    commandInstr_of_layout (.readEeprom m s3 s2 s1 s0 e3 e2 e1 e0 pr) s,
    fun s m start endAddr pr hop hseq => ⟨fun hge => ?_, fun hlt hend => ?_, fun hlt hle hnone => ?_⟩⟩
  · exact rejects_of_raise hseq (by rw [exec_readEeprom hop, if_pos hge.not_gt])
  · exact rejects_of_raise hseq
      (by rw [exec_readEeprom hop, if_neg (not_not.mpr hlt), if_pos hend.not_ge])
  · rw [exec_readEeprom_of_valid hop hlt hle, hnone, drain_nil]
    rfl

/-- Settles O39: the three failing checks raise; after the passing one the command is at step 5 or 7. -/
theorem bulkReplyChecks : Obligations.BulkReplyChecks := by
  intro s m start endAddr pr opcode data hs
  dsimp only
  have hraises {e : CmdError} (h : checkReply s.cfg s.bulk.cur opcode data = some e) :
      (respond (.ok opcode data) s).seq = .ready ∧
        (respond (.ok opcode data) s).trace = s.trace ++ [.result (.error e)] := by
    obtain ⟨-, hseq, htrace, -⟩ := endTransaction_spec (.error e) s
    rw [respond_bad_reply hs h]
    exact ⟨hseq, htrace⟩
  refine ⟨fun hop => hraises (checkReply_badOpcode hop _ _), ?_, ?_, ?_⟩
  · rintro rfl hecho
    exact hraises (checkReply_addressMismatch hecho _)
  · rintro rfl hecho hlen
    exact hraises (checkReply_lengthMismatch hecho hlen _)
  · intro hop hecho hlen
    have hpass := (checkReply_eq_none_iff _ _ _ _).mpr ⟨hop, hecho, hlen⟩
    rw [respond_good_reply hs hpass, enterStep_readEeprom_seq (by split <;> omega)]
    exact Seq.noConfusion

/-- Settles O40: the law of each row, with the failure and Delay. -/
theorem bulkSequencerTable : Obligations.BulkSequencerTable := by
  refine ⟨fun s m start endAddr pr => rfl, fun s m start endAddr pr k hs => ?_⟩
  dsimp only
  refine ⟨fun o d => ⟨?row0, ?row1, ?row2, ?row4, ?row5, ?row7⟩, ?row6, ?delay, fun h3 => ?noDelay,
    fun kind _ _ => ?failure⟩
  case row7 =>
    rintro rfl
    obtain ⟨-, hseq, htrace, -⟩ := endTransaction_spec (.okBytes s.bulk.acc) s
    rw [respond_leaveSub hs]
    exact ⟨hseq, htrace⟩
  case row6 =>
    rintro chunk rfl hlen
    rw [respond_good_reply hs (checkReply_chunk hlen _ _), acceptChunk_chunk hlen]
    exact ⟨fun hmore => by rw [if_pos hmore]; rfl, fun hlast => by rw [if_neg hlast.not_gt]; rfl⟩
  case delay =>
    rintro rfl
    exact ⟨waitsForDelay_readEeprom hs, passDelay_readEeprom hs⟩
  case noDelay =>
    exact ⟨(waitsForDelay_readEeprom hs).trans (decide_eq_false h3), passDelay_readEeprom_of_ne hs h3⟩
  case failure =>
    obtain ⟨-, hseq, htrace, -⟩ := endTransaction_spec (.error (.transport kind k)) s
    rw [respond_of_fail hs]
    exact ⟨hseq, htrace⟩
  case' row0 | row1 | row2 | row4 | row5 => rintro rfl
  all_goals exact respond_ok_readEeprom hs (by omega) (by omega) o d

/-- Settles O38: `drain_preamble` from the loaded registers on, with no response left at the first request. -/
theorem bulkReadPreamble : Obligations.BulkReadPreamble := by
  intro s m start endAddr pr o0 o1 o2 o4 d0 d1 d2 d4 hop hseq hlt hle hr
  rw [exec_readEeprom_of_valid hop hlt hle, hr, drain_preamble, drain_nil]
  simp [enterStep, primOf, readEepromPrim, preambleOut, State.put, State.setSeq, loadBulk, State.setBulk, frame,
    frameP2]

/-- Settles O43: `chunkCount_eq_iff` for the count, and `addr3_injective` below the end of the range. -/
theorem chunkArithmetic : Obligations.ChunkArithmetic := by
  intro start endAddr hlt hle
  obtain ⟨hreach, hlast⟩ := (chunkCount_eq_iff hlt).mp rfl
  exact ⟨by omega, hreach, fun i hi => ⟨by omega, fun a ha h => addr3_injective ha (by omega) h⟩⟩

/-- Settles O41: the whole read of `drain_goodReplies` from the loaded registers on, whose result ends the transaction
with the later responses left. -/
theorem bulkReadReturnsEveryChunk : Obligations.BulkReadReturnsEveryChunk := by
  intro s m start endAddr pr chunks rest hop hseq hlt hle hcount hlen hr
  obtain ⟨hreach, hlast⟩ := (chunkCount_eq_iff hlt).mp hcount.symm
  have hne : chunks ≠ [] := by
    rintro rfl
    rw [List.length_nil] at hreach
    omega
  obtain ⟨t, hrun, ⟨hop', hcfg, hparams, hmode, hrequests⟩, hready, hresponses, htrace⟩ :=
    drain_goodReplies (s := loadBulk m start endAddr pr s) (m := m) (start := start) (endAddr := endAddr) (pr := pr)
      hne hlen hreach hlast rest
  have hexec : exec (.readEeprom m start endAddr pr) s = .next t := by
    rw [exec_readEeprom_of_valid hop hlt hle, hr, ← hrun]
    rfl
  refine ⟨t, _, hexec, rfl, htrace, hready, hresponses, hop', hcfg, hparams, hmode, hrequests, ?_,
    length_flatten_chunks hlen⟩
  rw [primsOf_append, primsOf_append, List.length_append, List.length_append, length_primsOf_chunkOut]
  rfl

/-- Settles O42: `exec_readEeprom_readsOn` for the start; a later step runs on the responses or passes Delay. -/
theorem bulkResultIsWholeOrNothing : Obligations.BulkResultIsWholeOrNothing := by
  refine ⟨fun s t m start endAddr pr _ h => (exec_readEeprom_readsOn h).2,
    fun s t m start endAddr pr k hlegal hp hs h => ?_⟩
  obtain ⟨hop, -⟩ := (inProgress_eq_true_iff s).mp hp
  rw [step_inProgress hp] at h
  obtain ⟨r, rs, -, rfl⟩ | ⟨-, -, rfl⟩ := resume_eq_next h
  · exact (drain_readsOn _ (hlegal.seqLegal hop) (.inr ⟨k, hs⟩)).2
  · exact (passDelay_readsOn hs).2

end Sys2Proof.Machine

/-! PROOF of the note history statement (spec/50_interfaces.md, R248), outside the block. The history is a window on the
notes: adding a note appends it and drops from the front what exceeds the capacity. -/

namespace Sys2Proof.Machine

/-- R248: whether there is room or not, the note is appended and the latest `noteCapacity` entries stay. -/
theorem addNote_eq_drop (notes : List Note) (n : Note) :
    addNote notes n = (notes ++ [n]).drop (notes.length + 1 - noteCapacity) := by
  unfold addNote
  split
  case isTrue hroom => rw [Nat.sub_eq_zero_of_le hroom, List.drop_zero]
  case isFalse hfull =>
    have hpos : 0 < noteCapacity := by decide
    have hexcess : notes.length + 1 - noteCapacity = notes.length - (noteCapacity - 1) := by omega
    rw [hexcess, List.drop_append_of_le_length (Nat.sub_le _ _)]

/-- What a full history has dropped stays dropped: a note added to the latest entries gives the latest entries. -/
theorem addNote_drop (ns : List Note) (n : Note) :
    addNote (ns.drop (ns.length - noteCapacity)) n = (ns ++ [n]).drop ((ns ++ [n]).length - noteCapacity) := by
  have hdropped : ns.length - noteCapacity + ((ns.drop (ns.length - noteCapacity)).length + 1 - noteCapacity) =
      (ns ++ [n]).length - noteCapacity := by
    rw [List.length_drop, List.length_append, List.length_singleton]
    omega
  rw [addNote_eq_drop, ← List.drop_append_of_le_length (Nat.sub_le _ _), List.drop_drop, hdropped]

/-- Settles O58, by induction on the notes from the latest one backwards: `addNote_drop` is the step. -/
theorem noteHistoryKeepsTheLatestHundred : Obligations.NoteHistoryKeepsTheLatestHundred := by
  intro ns
  induction ns using List.reverseRecOn with
  | nil => rfl
  | append_singleton ns n ih =>
    rw [List.foldl_concat, ih]
    exact addNote_drop ns n

end Sys2Proof.Machine

/-! PROOFS of the exception statements (spec/60_exceptions.md). A raise ends the transaction; from response to response
a command outputs primitives and progress reports only, until one result ends it; and `op` alone decides on a refusal. -/

namespace Sys2Proof.Machine

/-! ### What a raise leaves -/

/-- R32: unless the command is a read-eeprom, there are no bulk-read registers to release. -/
theorem releaseBulk_of_not_reading {s : State}
    (h : ∀ m start endAddr pr k, s.seq ≠ .step (.readEeprom m start endAddr pr) k) : releaseBulk s = s := by
  cases hs : s.seq with
  | ready => exact releaseBulk_of_ready hs
  | step cmd k =>
    refine releaseBulk_of_ne (fun m start endAddr pr hcmd => ?_) hs
    subst hcmd
    exact h m start endAddr pr k hs

theorem endTransaction_bulk (r : CmdResult) (s : State) : (endTransaction r s).bulk = (releaseBulk s).bulk := rfl

/-- Settles O44: the law of `endTransaction`, and for the bulk-read registers that of `releaseBulk`. -/
theorem raiseEndsTheTransaction : Obligations.RaiseEndsTheTransaction := by
  intro e s
  obtain ⟨⟨hop, hcfg, hparams, hmode, hrequests⟩, hseq, htrace, hresponses⟩ := endTransaction_spec (.error e) s
  refine ⟨hseq, htrace, hop, hcfg, hparams, hmode, hrequests, hresponses, fun hnot => ?_⟩
  rw [raise, endTransaction_bulk, releaseBulk_of_not_reading hnot]

/-! ### What a command reports, from response to response -/

/-- An output of a command that goes on: a primitive or a progress report. -/
def Interim (o : Output) : Prop := (∃ p, o = .issued p) ∨ ∃ a, o = .progress a

/-- R263: from `s` to `t` a command output primitives and progress reports, and then one result if it has ended.
`ReportsOnceAndLast` says the same of a command that has stopped (`Reports.reportsOnceAndLast`). -/
inductive Reports (s t : State) : Prop
  | goesOn (ps : List Output) (hps : ∀ o ∈ ps, Interim o) (hseq : t.seq ≠ .ready) (htrace : t.trace = s.trace ++ ps)
  | ended (ps : List Output) (r : CmdResult) (hps : ∀ o ∈ ps, Interim o) (hseq : t.seq = .ready)
      (htrace : t.trace = s.trace ++ (ps ++ [.result r]))

theorem Reports.refl {s : State} (h : s.seq ≠ .ready) : Reports s s :=
  .goesOn [] (List.forall_mem_nil _) h (List.append_nil _).symm

/-- Primitives and progress reports may come before what is reported. -/
theorem Reports.after_interim {s t u : State} {ps : List Output} (hps : ∀ o ∈ ps, Interim o)
    (htrace : t.trace = s.trace ++ ps) (h : Reports t u) : Reports s u := by
  cases h with
  | goesOn qs hqs hseq hu =>
    exact .goesOn (ps ++ qs) (List.forall_mem_append.mpr ⟨hps, hqs⟩) hseq (by rw [hu, htrace, List.append_assoc])
  | ended qs r hqs hseq hu =>
    exact .ended (ps ++ qs) r (List.forall_mem_append.mpr ⟨hps, hqs⟩) hseq
      (by rw [hu, htrace, List.append_assoc, List.append_assoc])

/-- What a command that goes on reports next comes after its outputs so far. -/
theorem Reports.trans {s t u : State} (h : Reports s t) (hseq : t.seq ≠ .ready) (k : Reports t u) : Reports s u := by
  cases h with
  | goesOn ps hps _ htrace => exact k.after_interim hps htrace
  | ended _ _ _ hready _ => exact absurd hready hseq

theorem Reports.reportsOnceAndLast {s t : State} (h : Reports s t) (hstop : t.seq = .ready ∨ t.responses = []) :
    ∃ out : List Output, t.trace = s.trace ++ out ∧ ReportsOnceAndLast out t := by
  cases h with
  | goesOn ps hps hseq htrace =>
    exact ⟨ps, htrace, ps, [], (List.append_nil ps).symm, hps, .inr ⟨hseq, rfl, hstop.resolve_left hseq⟩⟩
  | ended ps r hps hseq htrace => exact ⟨_, htrace, ps, [.result r], rfl, hps, .inl ⟨hseq, r, rfl⟩⟩

theorem endTransaction_reports (r : CmdResult) (s : State) : Reports s (endTransaction r s) := by
  obtain ⟨-, hseq, htrace, -⟩ := endTransaction_spec r s
  exact .ended [] r (List.forall_mem_nil _) hseq htrace

/-- Entering a step issues its primitive, or reports Ok if there is no such step. -/
theorem enterStep_reports (cmd : Instr) (k : Nat) (s : State) : Reports s (enterStep cmd k s) := by
  obtain ⟨-, -, ⟨p, -, hseq, htrace, -⟩ | ⟨-, hseq, htrace⟩⟩ := enterStep_spec cmd k s
  · exact .goesOn [.issued p] (List.forall_mem_singleton.mpr (.inl ⟨p, rfl⟩)) (by rw [hseq]; exact nofun) htrace
  · exact .ended [] .ok (List.forall_mem_nil _) hseq htrace

/-- R214: a chunk that is accepted reports progress, if anything. -/
theorem acceptChunk_interim (data : List Byte) (s : State) :
    ∃ ps : List Output, (∀ o ∈ ps, Interim o) ∧ (acceptChunk data s).trace = s.trace ++ ps := by
  obtain ⟨-, -, -, -, -, htrace⟩ := acceptChunk_spec data s
  refine ⟨_, ?_, htrace⟩
  split
  · exact List.forall_mem_singleton.mpr (.inr ⟨_, rfl⟩)
  · exact List.forall_mem_nil _

/-- R213: a bad reply raises; a good one reports progress and leads to a step. -/
theorem receiveChunk_reports (cmd : Instr) (opcode : Byte) (data : List Byte) (s : State) :
    Reports s (receiveChunk cmd opcode data s) := by
  unfold receiveChunk
  split
  · exact endTransaction_reports _ s
  · obtain ⟨ps, hps, htrace⟩ := acceptChunk_interim data s
    dsimp only
    split
    · exact (enterStep_reports cmd 5 _).after_interim hps htrace
    · exact (enterStep_reports cmd 7 _).after_interim hps htrace

/-- R217: an Ok response leads to a step, to a chunk, or to the end. -/
theorem advanceOk_reports (cmd : Instr) (k : Nat) (opcode : Byte) (data : List Byte) (s : State) :
    Reports s (advanceOk cmd k opcode data s) := by
  unfold advanceOk
  split
  · unfold advanceBulk
    split
    · exact receiveChunk_reports _ opcode data s
    · exact endTransaction_reports _ s
    · exact enterStep_reports _ _ s
  · exact enterStep_reports _ _ s

/-- R10, R242: to a command in progress a response is an Ok that leads on or a failure that raises. -/
theorem respond_reports (r : Response) {s : State} (h : s.seq ≠ .ready) : Reports s (respond r s) := by
  cases hs : s.seq with
  | ready => exact absurd hs h
  | step cmd k =>
    cases r with
    | ok opcode data => exact respond_of_ok hs opcode data ▸ advanceOk_reports cmd k opcode data s
    | fail kind => exact respond_of_fail hs kind ▸ endTransaction_reports _ s

/-- R244: a Delay that completes leads on. -/
theorem passDelay_reports {s : State} (h : s.seq ≠ .ready) : Reports s (passDelay s) := by
  unfold passDelay
  split
  · exact .refl h
  · split
    · exact advanceOk_reports _ _ _ _ s
    · exact .refl h

/-- R263, R265: nothing follows a result, because with `seq` Ready neither a response nor a Delay does anything. -/
theorem drain_reports (rs : List Response) {s t : State} (h : Reports s t) : Reports s (drain rs t) := by
  refine drain_induction (Reports s) (fun r u hu => ?respond) (fun u hu => ?delay) (fun u rs hu => ?responses) rs t h
  case respond =>
    by_cases hready : u.seq = .ready
    · rwa [respond, hready]
    · exact hu.trans hready (respond_reports r hready)
  case delay =>
    by_cases hready : u.seq = .ready
    · rwa [passDelay, hready]
    · exact hu.trans hready (passDelay_reports hready)
  case responses =>
    cases hu with
    | goesOn ps hps hseq htrace => exact .goesOn ps hps hseq htrace
    | ended ps r hps hseq htrace => exact .ended ps r hps hseq htrace

theorem runCommand_reports (cmd : Instr) (s : State) : Reports s (runCommand cmd s) :=
  drain_reports _ (enterStep_reports cmd 0 s)

/-- R170: a command is rejected with its one result, or runs; a read-eeprom loads its registers first. -/
theorem exec_command_reports {i : Instr} {s t : State} (hi : i.port = .command) (h : exec i s = .next t) :
    Reports s t := by
  obtain ⟨e, rfl⟩ | ⟨-, -, rfl⟩ | ⟨m, a, b, p, -, rfl, -, -⟩ := exec_command_cases hi h
  · exact endTransaction_reports _ s
  · exact runCommand_reports i s
  · have hload : (loadBulk m a b p s).trace = s.trace ++ [] := (List.append_nil _).symm
    exact (runCommand_reports i _).after_interim (List.forall_mem_nil _) hload

/-- Settles O45: a command `Reports` from its start, and from wherever it goes on; where it stops it has ended or no
response is left. -/
theorem commandReportsOnceAndLast : Obligations.CommandReportsOnceAndLast := by
  refine ⟨fun i s t hi h => (exec_command_reports hi h).reportsOnceAndLast (exec_command_stops hi h),
    fun s t hp h => ?_⟩
  obtain ⟨-, hseq⟩ := (inProgress_eq_true_iff s).mp hp
  rw [step_inProgress hp] at h
  obtain ⟨r, rs, -, rfl⟩ | ⟨hnone, -, rfl⟩ := resume_eq_next h
  · exact (drain_reports _ (.refl hseq)).reportsOnceAndLast (drain_stops _ s)
  · exact (passDelay_reports hseq).reportsOnceAndLast (.inr ((passDelay_responses s).trans hnone))

/-! ### Refusals -/

theorem whenOperational_eq_refused {s : State} {run : State → State} {r : Refusal}
    (h : whenOperational s run = .refused r) : s.op ≠ .operational := by
  intro hop
  rw [whenOperational_of_operational hop] at h
  cases h

theorem exec_of_not_operational {s : State} (h : s.op ≠ .operational) (i : Instr) :
    exec i s = .refused .notOperational := by
  obtain ⟨run, hrun⟩ := exec_guarded i
  rw [hrun, whenOperational_of_not_operational h]

/-- R11, R21: a block that is not Operational has no transaction in progress. -/
theorem inProgress_of_not_operational {s : State} (h : s.op ≠ .operational) : inProgress s = false := by
  simp [inProgress, h]

/-- Settles O46: every meaning stands under the guard of `exec_guarded`, and a block that is not Operational takes its
oldest request to such a meaning. -/
theorem refusedUnlessOperational : Obligations.RefusedUnlessOperational := by
  refine ⟨fun i s hop => exec_of_not_operational hop i, fun i s r h => ?_, fun s w rest hop hr => ?_⟩
  · obtain ⟨run, hrun⟩ := exec_guarded i
    exact whenOperational_eq_refused (hrun s ▸ h)
  · have hidle : inProgress s = false := inProgress_of_not_operational hop
    obtain hwindow | hcommand := hr
    · rw [step_window hidle hwindow]
      exact exec_of_not_operational (s := { s with requests := rest }) hop _
    · rw [step_command hidle hcommand]
      exact exec_of_not_operational (s := { s with requests := rest }) hop _

end Sys2Proof.Machine

/-! PROOFS of the reset and hazard statements (spec/70_reset_and_hazards.md). A step stops with a fault only where a
transaction has run out of responses; a construction gates the block on the ROM's variant, and reset is such a block. -/

namespace Sys2Proof.Machine

/-! ### Where a fault comes from -/

theorem whenOperational_ne_fault (s : State) (run : State → State) (f : Fault) : whenOperational s run ≠ .fault f := by
  unfold whenOperational
  split <;> exact nofun

/-- R266: a meaning answers a state or refuses, because it stands under the operational guard. -/
theorem exec_ne_fault (i : Instr) (s : State) (f : Fault) : exec i s ≠ .fault f := by
  obtain ⟨run, hrun⟩ := exec_guarded i
  rw [hrun]
  exact whenOperational_ne_fault s run f

/-- R244, R301: a transaction is stuck only without a response, at a primitive other than Delay. -/
theorem resume_eq_fault {s : State} {f : Fault} (h : resume s = .fault f) :
    s.responses = [] ∧ waitsForDelay s = false := by
  cases hr : s.responses with
  | nil =>
    cases hd : waitsForDelay s with
    | true => cases (resume_nil_of_delay hr hd).symm.trans h
    | false => exact ⟨rfl, rfl⟩
  | cons r rs => cases (resume_cons hr).symm.trans h

/-- R301: serving a request, or idling without one, never stops the machine with a fault. -/
theorem step_ne_fault_of_not_inProgress {s : State} (hp : inProgress s = false) (f : Fault) : step s ≠ .fault f := by
  match hr : s.requests with
  | [] => exact step_idle hp hr ▸ nofun
  | .construct _ _ :: _ => exact step_construct hp hr ▸ nofun
  | .window _ :: _ => exact step_window hp hr ▸ exec_ne_fault _ _ f
  | .command _ :: _ => exact step_command hp hr ▸ exec_ne_fault _ _ f

/-- Settles O47: with a transaction in progress a step is `resume`; without one it has no fault. -/
theorem onlyAMissingResponseIsStuck : Obligations.OnlyAMissingResponseIsStuck := by
  refine ⟨fun s hp hr hd => ?stuck, fun s hp hr hd => ?delay, fun s f h => ?only, exec_ne_fault⟩
  case stuck => exact (step_inProgress hp).trans (resume_nil_of_not_delay hr hd)
  case delay => exact (step_inProgress hp).trans (resume_nil_of_delay hr hd)
  case only =>
    cases hp : inProgress s with
    | true => exact ⟨rfl, resume_eq_fault (step_inProgress hp ▸ h)⟩
    | false => exact absurd h (step_ne_fault_of_not_inProgress hp f)

/-! ### Construction and reset -/

/-- R290: what a construction with the ROM's own variant leaves. -/
theorem construct_variant (rom : Rom) (s : State) :
    (construct rom rom.variant s).op = .operational ∧ (construct rom rom.variant s).cfg = rom ∧
      (construct rom rom.variant s).mode = .idle ∧ (construct rom rom.variant s).seq = .ready ∧
      (construct rom rom.variant s).trace = s.trace ++ [.constructed none] := by
  obtain ⟨-, hmatch⟩ | ⟨hne, -⟩ := construct_cases rom rom.variant s
  · exact hmatch
  · exact absurd rfl hne

/-- Settles O51: the step constructs with the request taken, and `construct_cases` gives each outcome. -/
theorem constructionGate : Obligations.ConstructionGate := by
  intro s rom v rest hp hr
  obtain ⟨-, hrequests, -⟩ := construct_keeps rom v { s with requests := rest }
  refine ⟨_, step_construct hp hr, ?_⟩
  obtain ⟨hv, hop, hcfg, hmode, hseq, htrace⟩ | ⟨hv, hop, hcfg, htrace⟩ :=
    construct_cases rom v { s with requests := rest }
  · exact ⟨hcfg, hrequests, fun hne => absurd hv hne, fun _ => ⟨hop, hmode, hseq, htrace⟩⟩
  · exact ⟨hcfg, hrequests, fun _ => ⟨hop, htrace⟩, fun heq => absurd heq hv⟩

/-- Settles O52: `construct_variant` for TC, which is the ROM at reset. -/
theorem resetIsAConstructedBlock : Obligations.ResetIsAConstructedBlock := by
  intro s
  obtain ⟨hop, hcfg, hmode, hseq, -⟩ := construct_variant tc s
  exact ⟨hop.symm, hcfg.symm, hmode.symm, hseq.symm, rfl, rfl, rfl⟩

/-- Settles O57: at reset `seq` is Ready. -/
theorem resetIsLegal : Obligations.ResetIsLegal := (SeqLegal.of_ready rfl).legal

end Sys2Proof.Machine
